-- ==== Sys2Proof/Word.lean ====
section
/-! DEFINITION. The byte and the two fixed-length byte sequences of rule R19 (`Byte^4`, `Byte^5`). -/

namespace Sys2Proof

/-- A byte, 0 to 255 (R10, R19, R26). -/
abbrev Byte := BitVec 8

/-- `Byte^4`: a raw chunk, `b0` first in buffer order (R19, R55). -/
structure Byte4 where
  b0 : Byte
  b1 : Byte
  b2 : Byte
  b3 : Byte
  deriving DecidableEq, Repr, Inhabited

/-- `Byte^5`: a 5-byte group or a 5-byte port (`DIN`, `DOUT`), `b0` first in buffer order (R18, R19, R56). -/
structure Byte5 where
  b0 : Byte
  b1 : Byte
  b2 : Byte
  b3 : Byte
  b4 : Byte
  deriving DecidableEq, Repr, Inhabited

end Sys2Proof
end

