-- ==== Sys2Proof/Config.lean ====
section
/-! DEFINITION. What the spec leaves open. Each constant below is a `draw` of rule R11: it has no body, so no proof can
see its value. Every one is applied to `State.draws`, which advances with each transaction, so a value need not be the
same twice (D14). `Config.fitsPosW` is the one open parameter of the spec, `POS_W` (R9, D10). -/

namespace Sys2Proof.Config

/-! ### Ports an operation does not drive (R18, R29, U4, U5; log 6) -/

/-- `DOUT[i]` after the `n`-th transaction, where that transaction does not drive it. -/
opaque freeDout (n i : Nat) : Byte

/-- `OLEN`, where not driven. -/
opaque freeOlen (n : Nat) : BitVec 3

/-- `EPOS`, where not driven. -/
opaque freeEpos (n : Nat) : BitVec 3

/-- `EBYTE`, where not driven. -/
opaque freeEbyte (n : Nat) : Byte

/-- `DIFF`, where not driven. -/
opaque freeDiff (n : Nat) : BitVec 3

/-- `ISTAIL`, where not driven. -/
opaque freeIstail (n : Nat) : Bool

/-- `OBUF`, where not driven. -/
opaque freeObuf (n : Nat) : List Byte

/-- `OLEN_S`, where not driven. -/
opaque freeOlenS (n : Nat) : Nat

/-- `EPOS_ABS`, where not driven. -/
opaque freeEposAbs (n : Nat) : Nat

/-- `ELEN`, where not driven. -/
opaque freeElen (n : Nat) : Nat

/-! ### Results of the unchecked decodes outside their precondition (R82, R107, U1; log 7) -/

/-- `DOUT[0..4)` of `DECU` on a group that `VAL` does not pass. -/
opaque freeUncheckedChunk (n : Nat) : Byte4

/-- `OBUF` of `DECUS` on a buffer that `VALS` does not pass: a byte sequence whose length no rule constrains. -/
opaque freeUncheckedBuffer (n : Nat) : List Byte

/-! ### The open parameter `POS_W` (R9, D10; log 10) -/

/-- What D10 asks of a bounded implementation with `posW`-bit lengths and positions: `ceil(ILEN/4)*5 < 2^POS_W`. -/
def fitsPosW (posW ilen : Nat) : Prop := (ilen + 3) / 4 * 5 < 2 ^ posW

end Sys2Proof.Config
end

