-- ==== Sys2Proof/Syntax.lean ====
section
/-! DEFINITION. The operations of rule R59, one constructor per row of spec/opcode_table.json. A chunk operation (format
C) carries its operand bytes (R60, R61); a sequencer operation (format S) has none, its operand being `IBUF` (R20). -/

namespace Sys2Proof

/-- An operation with its operands (R19, R59). Ignored request fields are no part of it (R61). -/
inductive Instr where
  /-- `ENC`: four raw bytes (R67). -/
  | enc (chunk : Byte4)
  /-- `DEC`: a five-byte group (R72). -/
  | dec (group : Byte5)
  /-- `VAL`: a five-byte group (R78). -/
  | val (group : Byte5)
  /-- `DECU`: a five-byte group (R81). -/
  | decu (group : Byte5)
  /-- `TDET`: a five-byte group (R85). -/
  | tdet (group : Byte5)
  /-- `TENC`: the `r` tail bytes, `r = TLEN` their number, 1 to 3 (R89, R62). -/
  | tenc (tail : List Byte)
  /-- `TDEC`: a five-byte group (R92). -/
  | tdec (group : Byte5)
  /-- `ENCS` (R99). -/
  | encs
  /-- `DECS` (R100). -/
  | decs
  /-- `ENCP` (R101). -/
  | encp
  /-- `DECP` (R102). -/
  | decp
  /-- `VALS` (R106). -/
  | vals
  /-- `DECUS` (R107). -/
  | decus
  deriving DecidableEq, Repr

end Sys2Proof
end

