-- ==== Sys2Proof/WellFormed.lean ====
section
/-! DEFINITION. The one restriction on operands that the operand types do not carry: a tail has 1 to 3 bytes (R62, R89). -/

namespace Sys2Proof

/-- "A remainder of 0 means no tail group is emitted at all" (R62). -/
def tailNotEmpty (tail : List Byte) : Bool := decide (1 ≤ tail.length)

/-- "4 bytes are a whole chunk for `ENC`" (R62). -/
def tailBelowChunk (tail : List Byte) : Bool := decide (tail.length ≤ 3)

/-- A tail of a legal length, `r` in 1 to 3 (R62). -/
def tailWellFormed (tail : List Byte) : Bool := tailNotEmpty tail && tailBelowChunk tail

/-- The requests that can be written down (R62). -/
def Instr.wellFormed : Instr → Bool
  | .enc _ => true
  | .dec _ => true
  | .val _ => true
  | .decu _ => true
  | .tdet _ => true
  | .tenc tail => tailWellFormed tail
  | .tdec _ => true
  | .encs => true
  | .decs => true
  | .encp => true
  | .decp => true
  | .vals => true
  | .decus => true

end Sys2Proof
end

