-- ==== Sys2Proof/Decode.lean ====
section
/-! DEFINITION. The 47-bit request word of rule R60: its fields, the decoder (total, refusing reserved requests by name,
R62) and, after it, the encoder, both from the table of rule R59. -/

namespace Sys2Proof

/-- The request word `REQ` = `OP`(4) `TLEN`(3) `DIN`(40) (R60, D4). -/
abbrev Req := BitVec 47

/-- `OP`, bits 46:43 (R60). -/
def Req.op (w : Req) : BitVec 4 := w.extractLsb' 43 4

/-- `TLEN`, bits 42:40 (R60). -/
def Req.tlen (w : Req) : BitVec 3 := w.extractLsb' 40 3

/-- `DIN[0..4]`: `DIN[0]` in bits 39:32 down to `DIN[4]` in bits 7:0 (R18, R60, D30). -/
def Req.din (w : Req) : Byte5 :=
  ⟨w.extractLsb' 32 8, w.extractLsb' 24 8, w.extractLsb' 16 8, w.extractLsb' 8 8, w.extractLsb' 0 8⟩

/-- Why a word is no request (R62, U2, U3). -/
inductive DecodeError where
  /-- `OP` is 0x7, 0xE or 0xF and selects no operation (R62). -/
  | reservedOp (op : BitVec 4)
  /-- `TENC` with `TLEN` 0 or 4 to 7 (R62). -/
  | illegalTailLength (tlen : BitVec 3)
  deriving DecidableEq, Repr

/-- `TENC`'s operand: the first `TLEN` bytes of `DIN`; the others are ignored (R61, R89). -/
def decodeTenc (tlen : BitVec 3) (din : Byte5) : Except DecodeError Instr :=
  match tlen.toNat with
  | 1 => .ok (.tenc [din.b0])
  | 2 => .ok (.tenc [din.b0, din.b1])
  | 3 => .ok (.tenc [din.b0, din.b1, din.b2])
  | _ => .error (.illegalTailLength tlen)

/-- The operation a request selects, with the operand bytes it reads (R59, R61). -/
def decode (w : Req) : Except DecodeError Instr :=
  match (Req.op w).toNat with
  | 0x0 => .ok (.enc ⟨(Req.din w).b0, (Req.din w).b1, (Req.din w).b2, (Req.din w).b3⟩)
  | 0x1 => .ok (.dec (Req.din w))
  | 0x2 => .ok (.val (Req.din w))
  | 0x3 => .ok (.decu (Req.din w))
  | 0x4 => .ok (.tdet (Req.din w))
  | 0x5 => decodeTenc (Req.tlen w) (Req.din w)
  | 0x6 => .ok (.tdec (Req.din w))
  | 0x8 => .ok .encs
  | 0x9 => .ok .decs
  | 0xA => .ok .encp
  | 0xB => .ok .decp
  | 0xC => .ok .vals
  | 0xD => .ok .decus
  | _ => .error (.reservedOp (Req.op w))

/-- The 47 bits of a table word of `nbits` bits: the request port has 47 wires, so the bit that rounds 47 up to whole
bytes carries nothing (R60; log 13). -/
def reqOfTableWord (nbits w : Nat) : Req := BitVec.ofNat 47 (w % 2 ^ nbits)

/-- What the decoder reads from a word numbered as spec/opcode_table.json numbers it. -/
def decodeTableWord (nbits w : Nat) : Option Instr :=
  match decode (reqOfTableWord nbits w) with
  | .ok i => some i
  | .error _ => none

/-- Packs the three fields of a request (R60, D30). -/
def packReq (op : BitVec 4) (tlen : BitVec 3) (din : Byte5) : Req :=
  op ++ tlen ++ din.b0 ++ din.b1 ++ din.b2 ++ din.b3 ++ din.b4

/-- The select code of an operation (R59). -/
def Instr.opcode : Instr → BitVec 4
  | .enc _ => 0x0
  | .dec _ => 0x1
  | .val _ => 0x2
  | .decu _ => 0x3
  | .tdet _ => 0x4
  | .tenc _ => 0x5
  | .tdec _ => 0x6
  | .encs => 0x8
  | .decs => 0x9
  | .encp => 0xA
  | .decp => 0xB
  | .vals => 0xC
  | .decus => 0xD

/-- Five zero bytes: what an ignored `DIN` is written as (R65; log 13). -/
def zeroDin : Byte5 := ⟨0, 0, 0, 0, 0⟩

/-- The request word of an operation, ignored fields written as 0 (R60, R65; log 13). A tail of illegal length has no
word (R62); it is sent to one that `decode` refuses. -/
def encode (i : Instr) : Req :=
  match i with
  | .enc c => packReq i.opcode 0 ⟨c.b0, c.b1, c.b2, c.b3, 0⟩
  | .dec g => packReq i.opcode 0 g
  | .val g => packReq i.opcode 0 g
  | .decu g => packReq i.opcode 0 g
  | .tdet g => packReq i.opcode 0 g
  | .tenc [a] => packReq i.opcode 1 ⟨a, 0, 0, 0, 0⟩
  | .tenc [a, b] => packReq i.opcode 2 ⟨a, b, 0, 0, 0⟩
  | .tenc [a, b, c] => packReq i.opcode 3 ⟨a, b, c, 0, 0⟩
  | .tenc _ => packReq i.opcode 0 zeroDin
  | .tdec g => packReq i.opcode 0 g
  | .encs => packReq i.opcode 0 zeroDin
  | .decs => packReq i.opcode 0 zeroDin
  | .encp => packReq i.opcode 0 zeroDin
  | .decp => packReq i.opcode 0 zeroDin
  | .vals => packReq i.opcode 0 zeroDin
  | .decus => packReq i.opcode 0 zeroDin

end Sys2Proof
end

