-- ==== Sys2Proof/Machine/State.lean ====
section
/-! DEFINITION. The state: the transaction ports of rules R18 and R20 as plain data, with the environment's schedule and
the counter of the free values, which are the model's own. The block itself remembers nothing (R13): no operation reads
an output port. The two constant tables are definitions (R15), in Machine/Tables.lean. -/

namespace Sys2Proof.Machine

/-- The status `ST` (R120). Codes 5, 6 and 7 are never produced and have no constructor (U8). -/
inductive Status where
  | ok
  | invalidLength
  | invalidByte
  | invalidChunk
  | invalidTail
  deriving DecidableEq, Repr

/-- The input ports of one transaction. `OP`, `TLEN` and `DIN` are the fields of `req` (R60); `ILEN` is the length of
`ibuf` (R20). -/
structure Inputs where
  /-- `REQ`: `OP`, `TLEN`, `DIN[0..4]` (R18, R60). -/
  req : Req
  /-- `IBUF[0..ILEN)` (R20). -/
  ibuf : List Byte
  deriving DecidableEq, Repr

/-- The output ports (R18, R20). -/
structure Outputs where
  /-- `DOUT[0..4]`, result bytes of a chunk operation (R18). -/
  dout : Byte5
  /-- `OLEN`, number of valid bytes of `DOUT` (R18). -/
  olen : BitVec 3
  /-- `ST`, status of every operation (R18, R20, R120). -/
  st : Status
  /-- `EPOS`, local error offset (R18). -/
  epos : BitVec 3
  /-- `EBYTE`, the offending byte (R18, R20). -/
  ebyte : Byte
  /-- `DIFF`, number of leading `'#'` (R18). -/
  diff : BitVec 3
  /-- `ISTAIL` (R18). -/
  istail : Bool
  /-- `OBUF`, result bytes of a sequencer operation (R20). -/
  obuf : List Byte
  /-- `OLEN_S`, length of the result in `OBUF` (R20). -/
  olenS : Nat
  /-- `EPOS_ABS`, absolute error position (R20). -/
  eposAbs : Nat
  /-- `ELEN`, the length an `INVALID_LENGTH` status reports (R20). -/
  elen : Nat
  deriving DecidableEq, Repr

/-- The machine: what stands on its ports, what the environment will still issue, and the count of transactions the
free values of Config are applied to. -/
structure State where
  /-- Input ports, as last presented. -/
  inp : Inputs
  /-- Output ports. -/
  out : Outputs
  /-- The model's own: the transactions the environment has still to issue, next first (log 1). -/
  pending : List Inputs
  /-- The model's own: how many transactions have drawn free values (log 6). -/
  draws : Nat
  deriving DecidableEq, Repr

/-- Why the machine stops with a fault: never. "Errors are returned as typed values to the caller, never thrown as
uncatchable faults" (R118); the block has no trap, so this type has no constructor. -/
inductive Fault where
  deriving DecidableEq, Repr

/-- Why there is no meaning for a request. -/
inductive Refusal where
  /-- Raised by `exec` for an operation that has no meaning yet; safe. No arm raises it. -/
  | notModelled (mnemonic : String)
  /-- Raised by `step` on a request whose `OP` is 0x7, 0xE or 0xF: "this spec gives such a request no meaning", "a model
  of the bit-level request refuses it" (R62, U2); safe. -/
  | reservedOp (op : BitVec 4)
  /-- Raised by `step` on a `TENC` request whose `TLEN` is not 1 to 3, and by the meaning of `TENC` on a tail that is not
  1 to 3 bytes long, which no request decodes to (R62, U3); safe. -/
  | illegalTailLength (r : Nat)
  deriving DecidableEq, Repr

/-- The machine after reset: no transaction issued, none to issue. The spec gives no port a reset value (R30, U7); the
values here are the model's choice (log 4, log 5, log 6). -/
def State.reset : State where
  inp := { req := 0#47, ibuf := [] }
  out :=
    { dout := ⟨0, 0, 0, 0, 0⟩, olen := 0, st := .ok, epos := 0, ebyte := 0, diff := 0, istail := false,
      obuf := [], olenS := 0, eposAbs := 0, elen := 0 }
  pending := []
  draws := 0

end Sys2Proof.Machine
end

