-- ==== Sys2Proof/Machine/Flags.lean ====
section
/-! DEFINITION. The results that play the part of condition codes (R23): the error kinds (R110 to R114), the
classification of `VAL` (R78, R79), and the status code each is reported with (R120). -/

namespace Sys2Proof.Machine

/-- The four error kinds with their information fields (R110 to R114). A position is local from a chunk operation and
absolute from a sequencer operation (R98). -/
inductive Error where
  /-- `InvalidLength(n)` (R111). -/
  | invalidLength (n : Nat)
  /-- `InvalidByte(position, byte)` (R112). -/
  | invalidByte (position : Nat) (byte : Byte)
  /-- `InvalidChunk(position)` (R113). -/
  | invalidChunk (position : Nat)
  /-- `InvalidTail`, without fields (R114). -/
  | invalidTail
  deriving DecidableEq, Repr

/-- The classes of `VAL` (R19, R78). -/
inductive Classification where
  | fine
  | badByte (position : Nat) (byte : Byte)
  | tooLarge
  deriving DecidableEq, Repr

/-- The status an error kind is reported with (R120). -/
def Error.status : Error → Status
  | .invalidLength _ => .invalidLength
  | .invalidByte _ _ => .invalidByte
  | .invalidChunk _ => .invalidChunk
  | .invalidTail => .invalidTail

/-- The number on the 3-bit port `ST` (R120). -/
def Status.code : Status → BitVec 3
  | .ok => 0
  | .invalidLength => 1
  | .invalidByte => 2
  | .invalidChunk => 3
  | .invalidTail => 4

/-- Position rebasing (R98): a local offset becomes an absolute position, `base` being the offset of the group in the
buffer. The byte is passed on unchanged. -/
def Error.rebase (base : Nat) : Error → Error
  | .invalidLength n => .invalidLength n
  | .invalidByte i c => .invalidByte (base + i) c
  | .invalidChunk p => .invalidChunk (base + p)
  | .invalidTail => .invalidTail

end Sys2Proof.Machine
end

