-- ==== Sys2Proof/Machine/Tables.lean ====
section
/-! DEFINITION. The constants of rule R7 and the two constant tables of the block: the forward table `ALPHA` (R14, R51)
and the inverse table `INV` (R16, R53), each transcribed from its own table of the spec. -/

namespace Sys2Proof.Machine

/-- `RADIX` (R7). -/
def RADIX : Nat := 85

/-- `RAW_W`, bytes in a raw chunk (R7). -/
def RAW_W : Nat := 4

/-- `ENC_W`, characters in a group (R7). -/
def ENC_W : Nat := 5

/-- `CH_LO`, lowest byte of the alphabet's range (R7). -/
def CH_LO : Nat := 0x21

/-- `CH_HI`, highest byte of the alphabet's range (R7). -/
def CH_HI : Nat := 0x7D

/-- `SENTINEL`, the character `#` (R7). -/
def SENTINEL : Byte := 0x23

/-- `MAX32` = 2^32 - 1 (R7). -/
def MAX32 : Nat := 4294967295

/-- `DIFF_MIN`, least legal sentinel count (R7). -/
def DIFF_MIN : Nat := 1

/-- `DIFF_MAX`, greatest legal sentinel count (R7). -/
def DIFF_MAX : Nat := 3

/-- `INV_BAD`, the marker of an unmapped byte (R16, D7). -/
def INV_BAD : Byte := 0xFF

/-- `ALPHA`, index 0 first (R51). Entries 62 to 84 are from general knowledge (G1; log 14). -/
def alphaTable : List Byte :=
  [0x30, 0x31, 0x32, 0x33, 0x34, 0x35, 0x36, 0x37, 0x38, 0x39] ++
  [0x61, 0x62, 0x63, 0x64, 0x65, 0x66, 0x67, 0x68, 0x69, 0x6A] ++
  [0x6B, 0x6C, 0x6D, 0x6E, 0x6F, 0x70, 0x71, 0x72, 0x73, 0x74] ++
  [0x75, 0x76, 0x77, 0x78, 0x79, 0x7A, 0x41, 0x42, 0x43, 0x44] ++
  [0x45, 0x46, 0x47, 0x48, 0x49, 0x4A, 0x4B, 0x4C, 0x4D, 0x4E] ++
  [0x4F, 0x50, 0x51, 0x52, 0x53, 0x54, 0x55, 0x56, 0x57, 0x58] ++
  [0x59, 0x5A, 0x2E, 0x2D, 0x3A, 0x2B, 0x3D, 0x5E, 0x21, 0x2F] ++
  [0x2A, 0x3F, 0x26, 0x3C, 0x3E, 0x28, 0x29, 0x5B, 0x5D, 0x7B] ++
  [0x7D, 0x40, 0x25, 0x24, 0x23]

/-- `ALPHA[d]`. "An index above 84 does not occur: every rule that reads `ALPHA` indexes it with `n mod 85`" (R14). -/
def alpha (d : Nat) : Byte := alphaTable.getD d INV_BAD

/-- `ZERO_CH` = `ALPHA[0]`, "the zero-digit character" (R7). -/
def zeroCh : Byte := alpha 0

/-- `INV`, entry `c - 0x21` at that index (R53). -/
def invTable : List Byte :=
  [68, 0xFF, 84, 83, 82, 72, 0xFF, 75, 76, 70, 65, 0xFF, 63, 62, 69, 0] ++
  [1, 2, 3, 4, 5, 6, 7, 8, 9, 64, 0xFF, 73, 66, 74, 71, 81] ++
  [36, 37, 38, 39, 40, 41, 42, 43, 44, 45, 46, 47, 48, 49, 50, 51] ++
  [52, 53, 54, 55, 56, 57, 58, 59, 60, 61, 77, 0xFF, 78, 67, 0xFF, 0xFF] ++
  [10, 11, 12, 13, 14, 15, 16, 17, 18, 19, 20, 21, 22, 23, 24, 25] ++
  [26, 27, 28, 29, 30, 31, 32, 33, 34, 35, 79, 0xFF, 80]

/-- `inv(c)`: the digit of a valid byte, `none` for `INVALID` (R16). The range is tested before the table is indexed
(R39), so an index above 92 does not occur. -/
def inv (c : Byte) : Option Nat :=
  if c.toNat < CH_LO ∨ CH_HI < c.toNat then none
  else if invTable.getD (c.toNat - CH_LO) INV_BAD = INV_BAD then none
  else some (invTable.getD (c.toNat - CH_LO) INV_BAD).toNat

end Sys2Proof.Machine
end

