-- ==== Sys2Proof/Machine/Operands.lean ====
section
/-! DEFINITION. How operand bytes are read from a buffer and put together: byte order on the raw side (R31, R55), digit
order on the text side (R32, R56), and the 5-byte ports written from the front (R18). -/

namespace Sys2Proof.Machine

/-- The bytes of a raw chunk in buffer order. -/
def bytes4 (c : Byte4) : List Byte := [c.b0, c.b1, c.b2, c.b3]

/-- The bytes of a group or of a 5-byte port in buffer order. -/
def bytes5 (g : Byte5) : List Byte := [g.b0, g.b1, g.b2, g.b3, g.b4]

/-- The first four bytes of a sequence as a raw chunk; only sequences of four bytes are given to it. -/
def toByte4 (l : List Byte) : Byte4 := ⟨l.getD 0 0, l.getD 1 0, l.getD 2 0, l.getD 3 0⟩

/-- The first five bytes of a sequence as a group; only sequences of five bytes are given to it. -/
def toByte5 (l : List Byte) : Byte5 := ⟨l.getD 0 0, l.getD 1 0, l.getD 2 0, l.getD 3 0, l.getD 4 0⟩

/-- A 5-byte port whose first bytes are driven with `l` and whose others stay as in `p`. -/
def overwriteFront (l : List Byte) (p : Byte5) : Byte5 :=
  ⟨l.getD 0 p.b0, l.getD 1 p.b1, l.getD 2 p.b2, l.getD 3 p.b3, l.getD 4 p.b4⟩

/-- `be32(b0, b1, b2, b3)` (R11, R31): the first byte is the most significant. -/
def be32 (c : Byte4) : Nat :=
  c.b0.toNat * 2 ^ 24 + c.b1.toNat * 2 ^ 16 + c.b2.toNat * 2 ^ 8 + c.b3.toNat

/-- `bytes_be32(n)` for `n` up to `MAX32` (R11, R31). -/
def bytesBe32 (n : Nat) : Byte4 :=
  ⟨BitVec.ofNat 8 (n / 2 ^ 24), BitVec.ofNat 8 (n / 2 ^ 16 % 256), BitVec.ofNat 8 (n / 2 ^ 8 % 256),
    BitVec.ofNat 8 (n % 256)⟩

/-- `MemRead(BUF, off, n)` = `BUF[off..off+n)` (R11). -/
def memRead (buf : List Byte) (off n : Nat) : List Byte := (buf.drop off).take n

/-- The raw chunk at byte offset `off` (R34). -/
def chunkAt (buf : List Byte) (off : Nat) : Byte4 := toByte4 (memRead buf off RAW_W)

/-- The group at byte offset `off` (R35). -/
def groupAt (buf : List Byte) (off : Nat) : Byte5 := toByte5 (memRead buf off ENC_W)

/-- The number of leading `'#'` bytes (R85, R92): the run that starts at the first byte. -/
def sentinelRun : List Byte → Nat
  | [] => 0
  | c :: cs => if c = SENTINEL then sentinelRun cs + 1 else 0

end Sys2Proof.Machine
end

