-- ==== Sys2Proof/Machine/Ops.lean ====
section
/-! DEFINITION. The operations every meaning is made of: presenting a transaction (R13, D1), driving the output ports
(R18, R20, R29), delivering an error (R118) and ending a transaction. There is no return from an error (R119). -/

namespace Sys2Proof.Machine

/-- The two request formats (R60). -/
inductive Format where
  /-- Format C, a chunk operation. -/
  | chunk
  /-- Format S, a sequencer operation. -/
  | sequencer
  deriving DecidableEq, Repr

/-- The output ports after the `n`-th transaction as far as no rule drives them: every one a free value (R29, U4) but
`ST`, which every operation drives (R23). -/
def undriven (n : Nat) (st : Status) : Outputs where
  dout := ⟨Config.freeDout n 0, Config.freeDout n 1, Config.freeDout n 2, Config.freeDout n 3, Config.freeDout n 4⟩
  olen := Config.freeOlen n
  st := st
  epos := Config.freeEpos n
  ebyte := Config.freeEbyte n
  diff := Config.freeDiff n
  istail := Config.freeIstail n
  obuf := Config.freeObuf n
  olenS := Config.freeOlenS n
  eposAbs := Config.freeEposAbs n
  elen := Config.freeElen n

/-- Success of a chunk operation with result bytes `l`: `DOUT[0..OLEN)`, `OLEN`, `ST` (R18). -/
def deliverBytes (n : Nat) (l : List Byte) : Outputs :=
  { undriven n .ok with
    dout := overwriteFront l (undriven n .ok).dout
    olen := BitVec.ofNat 3 l.length }

/-- Success of a sequencer operation with result `l`: `OBUF`, `OLEN_S`, `ST` (R20). -/
def deliverBuffer (n : Nat) (l : List Byte) : Outputs :=
  { undriven n .ok with obuf := l, olenS := l.length }

/-- Success of a sequencer operation that writes nothing to `OBUF`: `OLEN_S` 0, `ST` (R106). -/
def deliverNoBuffer (n : Nat) : Outputs :=
  { undriven n .ok with olenS := 0 }

/-- Delivery of an error, `raise E(info)` (R118): `ST` takes the code of `E`, its information fields are driven, the
length port of the format is 0, and no result byte is delivered. Which field carries what: R20, R111 to R114, R120. -/
def raise (format : Format) (e : Error) (n : Nat) : Outputs :=
  match format with
  | .chunk =>
    match e with
    | .invalidByte i c =>
      { undriven n e.status with olen := 0, epos := BitVec.ofNat 3 i, ebyte := c }
    | .invalidChunk p => { undriven n e.status with olen := 0, epos := BitVec.ofNat 3 p }
    | .invalidLength _ => { undriven n e.status with olen := 0 }
    | .invalidTail => { undriven n e.status with olen := 0 }
  | .sequencer =>
    match e with
    | .invalidByte i c => { undriven n e.status with olenS := 0, eposAbs := i, ebyte := c }
    | .invalidChunk p => { undriven n e.status with olenS := 0, eposAbs := p }
    | .invalidLength len => { undriven n e.status with olenS := 0, elen := len }
    | .invalidTail => { undriven n e.status with olenS := 0 }

/-- The end of a transaction: the output ports are `o`; the input ports are as they were (R38); nothing else is kept
(R13). -/
def complete (s : State) (o : Outputs) : Host.Outcome State Fault Refusal :=
  .next { s with out := o, draws := s.draws + 1 }

/-- A chunk operation whose result is bytes or an error (R19, R118). -/
def completeChunk (s : State) (res : Except Error (List Byte)) : Host.Outcome State Fault Refusal :=
  match res with
  | .ok l => complete s (deliverBytes s.draws l)
  | .error e => complete s (raise .chunk e s.draws)

/-- A sequencer operation whose result is a buffer or an error (R19, R118). -/
def completeBuffer (s : State) (res : Except Error (List Byte)) : Host.Outcome State Fault Refusal :=
  match res with
  | .ok l => complete s (deliverBuffer s.draws l)
  | .error e => complete s (raise .sequencer e s.draws)

/-- The environment issues its next transaction: what it presents stands on the input ports (R13, D1; log 1). -/
def State.present (s : State) (t : Inputs) (rest : List Inputs) : State :=
  { s with inp := t, pending := rest }

/-- The request the model refuses, by name (R62). -/
def refusalOf : DecodeError → Refusal
  | .reservedOp op => .reservedOp op
  | .illegalTailLength tlen => .illegalTailLength tlen.toNat

end Sys2Proof.Machine
end

