-- ==== Sys2Proof/Machine/Decoder.lean ====
section
/-! DEFINITION. The chunk decoder `U_DEC`: `DEC` (R72 to R77), `VAL` (R78 to R80), `DECU` (R81 to R83). -/

namespace Sys2Proof.Machine

/-- What a digit walk ends with: the accumulated value of all bytes, or the first invalid byte and its offset. -/
inductive Walk where
  | value (acc : Nat)
  | badByte (i : Nat) (c : Byte)
  deriving DecidableEq, Repr

/-- The digit walk of R72 and R78: bytes tested left to right (R73), the accumulator an unbounded number (R128). `i` is
the local offset of the first byte of the list. -/
def walk (i acc : Nat) : List Byte → Walk
  | [] => .value acc
  | c :: cs =>
    match inv c with
    | none => .badByte i c
    | some d => walk (i + 1) (acc * RADIX + d) cs

/-- The ordinary chunk decoder up to the value: all five byte tests (R73), then the range test (R74, R75). -/
def chunkValue (g : Byte5) : Except Error Nat :=
  match walk 0 0 (bytes5 g) with
  | .badByte i c => .error (.invalidByte i c)
  | .value acc => if MAX32 < acc then .error (.invalidChunk 0) else .ok acc

/-- `DEC` as a function (R19, R72). -/
def decodeChunk (g : Byte5) : Except Error (List Byte) :=
  match chunkValue g with
  | .error e => .error e
  | .ok acc => .ok (bytes4 (bytesBe32 acc))

/-- `VAL` as a function (R19, R78): "the same walk without materializing the byte output". -/
def validateChunk (g : Byte5) : Classification :=
  match walk 0 0 (bytes5 g) with
  | .badByte i c => .badByte i c
  | .value acc => if MAX32 < acc then .tooLarge else .fine

/-- The weighted sum of R81, with no test of any byte. -/
def uncheckedValue (g : Byte5) : Nat :=
  (inv g.b0).getD 0 * 85 ^ 4 + (inv g.b1).getD 0 * 85 ^ 3 + (inv g.b2).getD 0 * 85 ^ 2 +
    (inv g.b3).getD 0 * 85 + (inv g.b4).getD 0

/-- `DECU` within its precondition (R81). -/
def decodeChunkTrusted (g : Byte5) : Byte4 := bytesBe32 (uncheckedValue g)

/-- `DECU` as a function: R81 when `VAL` of the same bytes gives `Fine`, else the free bytes it is given (R82). -/
def decodeChunkUnchecked (g : Byte5) (free : Byte4) : Byte4 :=
  match validateChunk g with
  | .fine => decodeChunkTrusted g
  | .badByte _ _ => free
  | .tooLarge => free

/-- `DEC` (R72): bytes, `InvalidByte` (R73) or `InvalidChunk` (R74). -/
def execDec (group : Byte5) (s : State) : Host.Outcome State Fault Refusal :=
  completeChunk s (decodeChunk group)

/-- `VAL` (R78): the class on `ST`, `EPOS`, `EBYTE` (R79); `OLEN` 0 and `DOUT` not driven in every case. -/
def execVal (group : Byte5) (s : State) : Host.Outcome State Fault Refusal :=
  match validateChunk group with
  | .fine => completeChunk s (.ok [])
  | .badByte i c => completeChunk s (.error (.invalidByte i c))
  | .tooLarge => completeChunk s (.error (.invalidChunk 0))

/-- `DECU` (R81, R82): `ST` is `OK` and `OLEN` 4 whatever the operand. -/
def execDecu (group : Byte5) (s : State) : Host.Outcome State Fault Refusal :=
  complete s (deliverBytes s.draws (bytes4 (decodeChunkUnchecked group (Config.freeUncheckedChunk s.draws))))

end Sys2Proof.Machine
end

