-- ==== Sys2Proof/Machine/Encoder.lean ====
section
/-! DEFINITION. The chunk encoder `U_ENC`: `ENC` (R67 to R71). -/

namespace Sys2Proof.Machine

/-- The five digits of a chunk value as characters: "fill the output array back-to-front, dividing each iteration"
(R67). -/
def encodeValue (n : Nat) : Byte5 :=
  let n3 := n / RADIX
  let n2 := n3 / RADIX
  let n1 := n2 / RADIX
  let n0 := n1 / RADIX
  ⟨alpha (n0 % RADIX), alpha (n1 % RADIX), alpha (n2 % RADIX), alpha (n3 % RADIX), alpha (n % RADIX)⟩

/-- `ENC` as a function (R19, R67). -/
def encodeChunk (c : Byte4) : Byte5 := encodeValue (be32 c)

/-- `ENC` (R67): never an error (R68). -/
def execEnc (chunk : Byte4) (s : State) : Host.Outcome State Fault Refusal :=
  complete s (deliverBytes s.draws (bytes5 (encodeChunk chunk)))

end Sys2Proof.Machine
end

