-- ==== Sys2Proof/Machine/Tail.lean ====
section
/-! DEFINITION. The tail unit `U_TAIL`: `TDET` (R85 to R88), `TENC` (R89 to R91), `TDEC` (R92 to R96). -/

namespace Sys2Proof.Machine

/-- `ISTAIL`: the group starts with `'#'` (R85, R86). -/
def isTail (g : Byte5) : Bool := decide (g.b0 = SENTINEL)

/-- `DIFF`: the number of leading `'#'` bytes, 0 to 5 (R85). -/
def sentinelCount (g : Byte5) : Nat := sentinelRun (bytes5 g)

/-- `TENC` as a function (R19, R89), for a tail of `r` bytes: padded on the left with `diff = 4 - r` zero bytes, encoded,
its first `diff` characters overwritten with `'#'`. -/
def encodeTail (tail : List Byte) : Byte5 :=
  let diff := 4 - tail.length
  let p := List.replicate diff (0 : Byte) ++ tail
  let g := encodeChunk (toByte4 p)
  overwriteFront (List.replicate diff SENTINEL) g

/-- A copy of the group with its `k` leading sentinels replaced by the zero-digit character (R92, R38). -/
def rewriteTail (k : Nat) (g : Byte5) : Byte5 := overwriteFront (List.replicate k zeroCh) g

/-- `TDEC` as a function (R19, R92), its tests in the order of R93. -/
def decodeTail (g : Byte5) : Except Error (List Byte) :=
  let k := sentinelCount g
  if k < DIFF_MIN ∨ DIFF_MAX < k then .error .invalidTail
  else
    match chunkValue (rewriteTail k g) with
    | .error e => .error e
    | .ok acc =>
      if 256 ^ (4 - k) - 1 < acc then .error .invalidTail
      else .ok ((bytes4 (bytesBe32 acc)).drop k)

/-- `TDET` (R85): `ISTAIL` and `DIFF`, `OLEN` 0; never an error. -/
def execTdet (group : Byte5) (s : State) : Host.Outcome State Fault Refusal :=
  complete s
    { deliverBytes s.draws [] with
      istail := isTail group
      diff := BitVec.ofNat 3 (sentinelCount group) }

/-- `TENC` (R89): never an error. A tail that is not 1 to 3 bytes long is no request (R62). -/
def execTenc (tail : List Byte) (s : State) : Host.Outcome State Fault Refusal :=
  if tailWellFormed tail then complete s (deliverBytes s.draws (bytes5 (encodeTail tail)))
  else .refused (.illegalTailLength tail.length)

/-- `TDEC` (R92): 1 to 3 bytes, `InvalidTail` or `InvalidByte` (R93); `DIFF` is driven in every case. -/
def execTdec (group : Byte5) (s : State) : Host.Outcome State Fault Refusal :=
  match decodeTail group with
  | .ok l => complete s { deliverBytes s.draws l with diff := BitVec.ofNat 3 (sentinelCount group) }
  | .error e => complete s { raise .chunk e s.draws with diff := BitVec.ofNat 3 (sentinelCount group) }

end Sys2Proof.Machine
end

