-- ==== Sys2Proof/Machine/Sequencer.lean ====
section
/-! DEFINITION. The stream sequencer `U_SEQ`: `ENCS`, `DECS`, `ENCP`, `DECP`, `VALS`, `DECUS` (R97 to R109). Each is a
function on the whole input buffer; a loop counts its groups with `ci`, reads group `ci` at its offset (R34, R35), puts
results behind one another, and stops at the first error (R45). -/

namespace Sys2Proof.Machine

/-- `k` raw chunks from number `ci` on, each through `ENC` (R99, R101). -/
def encodeChunks (buf : List Byte) : (k ci : Nat) → List Byte
  | 0, _ => []
  | k + 1, ci => bytes5 (encodeChunk (chunkAt buf (4 * ci))) ++ encodeChunks buf k (ci + 1)

/-- `k` groups from number `ci` on, each through `DEC`, errors rebased to the group's offset (R98, R100). -/
def decodeGroups (buf : List Byte) : (k ci : Nat) → Except Error (List Byte)
  | 0, _ => .ok []
  | k + 1, ci =>
    match decodeChunk (groupAt buf (5 * ci)) with
    | .error e => .error (e.rebase (5 * ci))
    | .ok l =>
      match decodeGroups buf k (ci + 1) with
      | .error e => .error e
      | .ok ls => .ok (l ++ ls)

/-- `k` groups from number `ci` on, each through `VAL` (R106). -/
def validateGroups (buf : List Byte) : (k ci : Nat) → Except Error Unit
  | 0, _ => .ok ()
  | k + 1, ci =>
    match validateChunk (groupAt buf (5 * ci)) with
    | .badByte i c => .error (.invalidByte (5 * ci + i) c)
    | .tooLarge => .error (.invalidChunk (5 * ci))
    | .fine => validateGroups buf k (ci + 1)

/-- `k` groups from number `ci` on, each through `DECU` within its precondition (R107). -/
def decodeGroupsTrusted (buf : List Byte) : (k ci : Nat) → List Byte
  | 0, _ => []
  | k + 1, ci => bytes4 (decodeChunkTrusted (groupAt buf (5 * ci))) ++ decodeGroupsTrusted buf k (ci + 1)

/-- `ENCS` as a function (R19, R99). -/
def encodeStrict (buf : List Byte) : Except Error (List Byte) :=
  if buf.length % RAW_W ≠ 0 then .error (.invalidLength buf.length)
  else .ok (encodeChunks buf (buf.length / RAW_W) 0)

/-- `DECS` as a function (R19, R100). -/
def decodeStrict (buf : List Byte) : Except Error (List Byte) :=
  if buf.length % ENC_W ≠ 0 then .error (.invalidLength buf.length)
  else decodeGroups buf (buf.length / ENC_W) 0

/-- `ENCP` as a function (R19, R101). -/
def encodePadded (buf : List Byte) : List Byte :=
  let r := buf.length % RAW_W
  let k := buf.length / RAW_W
  if r ≠ 0 then encodeChunks buf k 0 ++ bytes5 (encodeTail (memRead buf (4 * k) r))
  else encodeChunks buf k 0

/-- `DECP` as a function (R19, R102): the ordinary groups before the tail group, the tail test on the last group's first
byte alone (R103). -/
def decodePadded (buf : List Byte) : Except Error (List Byte) :=
  let n := buf.length
  if n = 0 then .ok []
  else if n % ENC_W ≠ 0 then .error (.invalidLength n)
  else
    let g := n / ENC_W
    let last := groupAt buf (n - 5)
    let body := if isTail last then g - 1 else g
    match decodeGroups buf body 0 with
    | .error e => .error e
    | .ok l =>
      if isTail last then
        match decodeTail last with
        | .error e => .error (e.rebase (n - 5))
        | .ok tail => .ok (l ++ tail)
      else .ok l

/-- `VALS` as a function (R19, R106). -/
def validateStrict (buf : List Byte) : Except Error Unit :=
  if buf.length % ENC_W ≠ 0 then .error (.invalidLength buf.length)
  else validateGroups buf (buf.length / ENC_W) 0

/-- `DECUS` as a function (R19, R107): the decoded groups when `VALS` of the same buffer gives `Ok`, else the free
sequence it is given. -/
def decodeStrictUnchecked (buf free : List Byte) : List Byte :=
  match validateStrict buf with
  | .ok () => decodeGroupsTrusted buf (buf.length / ENC_W) 0
  | .error _ => free

/-- `ENCS` (R99). -/
def execEncs (s : State) : Host.Outcome State Fault Refusal :=
  completeBuffer s (encodeStrict s.inp.ibuf)

/-- `DECS` (R100). -/
def execDecs (s : State) : Host.Outcome State Fault Refusal :=
  completeBuffer s (decodeStrict s.inp.ibuf)

/-- `ENCP` (R101): never an error. -/
def execEncp (s : State) : Host.Outcome State Fault Refusal :=
  completeBuffer s (.ok (encodePadded s.inp.ibuf))

/-- `DECP` (R102). -/
def execDecp (s : State) : Host.Outcome State Fault Refusal :=
  completeBuffer s (decodePadded s.inp.ibuf)

/-- `VALS` (R106): `OLEN_S` 0 and `OBUF` not written in every case. -/
def execVals (s : State) : Host.Outcome State Fault Refusal :=
  match validateStrict s.inp.ibuf with
  | .ok () => complete s (deliverNoBuffer s.draws)
  | .error e => complete s (raise .sequencer e s.draws)

/-- `DECUS` (R107): never an error. -/
def execDecus (s : State) : Host.Outcome State Fault Refusal :=
  completeBuffer s (.ok (decodeStrictUnchecked s.inp.ibuf (Config.freeUncheckedBuffer s.draws)))

end Sys2Proof.Machine
end

