-- ==== Sys2Proof/Machine/Dispatch.lean ====
section
/-! DEFINITION. One arm per operation of rule R59. -/

namespace Sys2Proof.Machine

/-- The meaning of an operation at a state. -/
def exec (i : Instr) (s : State) : Host.Outcome State Fault Refusal :=
  match i with
  | .enc chunk => Sys2Proof.Machine.execEnc chunk s
  | .dec group => Sys2Proof.Machine.execDec group s
  | .val group => Sys2Proof.Machine.execVal group s
  | .decu group => Sys2Proof.Machine.execDecu group s
  | .tdet group => Sys2Proof.Machine.execTdet group s
  | .tenc tail => Sys2Proof.Machine.execTenc tail s
  | .tdec group => Sys2Proof.Machine.execTdec group s
  | .encs => Sys2Proof.Machine.execEncs s
  | .decs => Sys2Proof.Machine.execDecs s
  | .encp => Sys2Proof.Machine.execEncp s
  | .decp => Sys2Proof.Machine.execDecp s
  | .vals => Sys2Proof.Machine.execVals s
  | .decus => Sys2Proof.Machine.execDecus s

end Sys2Proof.Machine
end

