-- ==== Sys2Proof/Machine/Step.lean ====
section
/-! DEFINITION. One step: the environment issues its next transaction and the block evaluates it, atomically (R13, R40,
D1; log 1). -/

namespace Sys2Proof.Machine

/-- One transaction. With none to issue nothing happens (log 3); a request that selects no operation is refused (R62). -/
def step (s : State) : Host.Outcome State Fault Refusal :=
  match s.pending with
  | [] => .next s
  | t :: rest =>
    match decode t.req with
    | .error e => .refused (refusalOf e)
    | .ok i => exec i (s.present t rest)

/-- The state in which the environment's next transaction is the request `w`, on the buffer that stands at `IBUF`
(log 2). -/
def State.withFetchWord (s : State) (nbits w : Nat) : State :=
  { s with pending := { req := reqOfTableWord nbits w, ibuf := s.inp.ibuf } :: s.pending }

end Sys2Proof.Machine
end

