-- ==== Sys2Proof/Safety.lean ====
section
/-! DEFINITION. The terms claims are made in: what may be read of the output ports after an operation (R29), the sum type
of rule R19 they stand for, the precondition of the unchecked operations (R129), which operation can report which error
(R115), and the invariant of the ports that every step keeps. -/

namespace Sys2Proof.Machine

/-- The request format of an operation (R59, R60). -/
def formatOf : Instr → Format
  | .enc _ => .chunk
  | .dec _ => .chunk
  | .val _ => .chunk
  | .decu _ => .chunk
  | .tdet _ => .chunk
  | .tenc _ => .chunk
  | .tdec _ => .chunk
  | .encs => .sequencer
  | .decs => .sequencer
  | .encp => .sequencer
  | .decp => .sequencer
  | .vals => .sequencer
  | .decus => .sequencer

/-- The caller's obligation before an operation on the buffer `ibuf` (R81, R107, R129): a successful `VAL` or `VALS` of
the same bytes before an unchecked decode, nothing before any other. -/
def preconditionHolds (i : Instr) (ibuf : List Byte) : Prop :=
  match i with
  | .decu g => validateChunk g = .fine
  | .decus => validateStrict ibuf = .ok ()
  | .enc _ => True
  | .dec _ => True
  | .val _ => True
  | .tdet _ => True
  | .tenc _ => True
  | .tdec _ => True
  | .encs => True
  | .decs => True
  | .encp => True
  | .decp => True
  | .vals => True

/-- The error statuses an operation can end with, row by row of R115 (`VAL`'s classes by R79). -/
def errorStatuses : Instr → List Status
  | .enc _ => []
  | .dec _ => [.invalidByte, .invalidChunk]
  | .val _ => [.invalidByte, .invalidChunk]
  | .decu _ => []
  | .tdet _ => []
  | .tenc _ => []
  | .tdec _ => [.invalidByte, .invalidTail]
  | .encs => [.invalidLength]
  | .decs => [.invalidLength, .invalidByte, .invalidChunk]
  | .encp => []
  | .decp => [.invalidLength, .invalidByte, .invalidChunk, .invalidTail]
  | .vals => [.invalidLength, .invalidByte, .invalidChunk]
  | .decus => []

/-- A status an operation can end with: success or one of its errors (R115). -/
def mayReport (i : Instr) (st : Status) : Prop := st = .ok ∨ st ∈ errorStatuses i

/-- The error at the output ports, read from the fields its kind drives in that format (R20, R112, R113, R118, R120). -/
def errorAt (format : Format) (o : Outputs) : Option Error :=
  match o.st with
  | .ok => none
  | .invalidLength => some (.invalidLength o.elen)
  | .invalidByte =>
    match format with
    | .chunk => some (.invalidByte o.epos.toNat o.ebyte)
    | .sequencer => some (.invalidByte o.eposAbs o.ebyte)
  | .invalidChunk =>
    match format with
    | .chunk => some (.invalidChunk o.epos.toNat)
    | .sequencer => some (.invalidChunk o.eposAbs)
  | .invalidTail => some .invalidTail

/-- The result bytes at the output ports: `DOUT[0..OLEN)` or `OBUF[0..OLEN_S)` (R18, R20). -/
def bytesAt (format : Format) (o : Outputs) : List Byte :=
  match format with
  | .chunk => (bytes5 o.dout).take o.olen.toNat
  | .sequencer => o.obuf.take o.olenS

/-- What a claim may read of the output ports after an operation; a port it does not drive is not in it (R29). -/
structure Reading where
  /-- The error reported, if any; else the operation succeeded. -/
  error : Option Error
  /-- The result bytes; none after an error (R118). -/
  bytes : List Byte
  /-- `ISTAIL`, after `TDET` only (R18). -/
  istail : Option Bool
  /-- `DIFF`, after `TDET` and `TDEC` only (R18). -/
  diff : Option Nat
  deriving DecidableEq, Repr

/-- The part of the output ports that an operation drives, as the result of rule R19. -/
def reading (i : Instr) (o : Outputs) : Reading where
  error := errorAt (formatOf i) o
  bytes := bytesAt (formatOf i) o
  istail :=
    match i with
    | .tdet _ => some o.istail
    | _ => none
  diff :=
    match i with
    | .tdet _ => some o.diff.toNat
    | .tdec _ => some o.diff.toNat
    | _ => none

/-- The legal output ports of a chunk operation: `OLEN` at most 5 and 0 with an error (R18, R118), positions within a
group (R18, R112), the reported byte an invalid one, an over-large group reported at 0 (R113). -/
def chunkPortsLegal (o : Outputs) : Prop :=
  o.olen.toNat ≤ 5 ∧
  (o.st ≠ .ok → o.olen = 0) ∧
  (o.st = .invalidByte → o.epos.toNat ≤ 4 ∧ inv o.ebyte = none) ∧
  (o.st = .invalidChunk → o.epos = 0)

/-- The legal output ports of a sequencer operation on the buffer `ibuf`: no result with an error (R118), the reported
length that of the buffer (R111), the reported byte the one at the reported position and an invalid one (R112), an
over-large group reported at its start inside the buffer (R113). -/
def sequencerPortsLegal (ibuf : List Byte) (o : Outputs) : Prop :=
  (o.st ≠ .ok → o.olenS = 0) ∧
  (o.st = .invalidLength → o.elen = ibuf.length) ∧
  (o.st = .invalidByte → ibuf[o.eposAbs]? = some o.ebyte ∧ inv o.ebyte = none) ∧
  (o.st = .invalidChunk → o.eposAbs % 5 = 0 ∧ o.eposAbs + 5 ≤ ibuf.length)

/-- The invariant of the ports: whatever operation the request at the input ports selects, the output ports are legal
for it. -/
def State.PortsLegal (s : State) : Prop :=
  ∀ i, decode s.inp.req = .ok i →
    mayReport i s.out.st ∧
    (formatOf i = .chunk → chunkPortsLegal s.out) ∧
    (formatOf i = .sequencer → sequencerPortsLegal s.inp.ibuf s.out)

/-- The operation `i` completes at `s`: `exec` answers a next state whose output ports satisfy `p`. The input ports are as
they were (R38), and so is what the environment has still to issue. -/
def Completes (i : Instr) (s : State) (p : Outputs → Prop) : Prop :=
  ∃ t, exec i s = .next t ∧ p t.out ∧ t.inp = s.inp ∧ t.pending = s.pending

/-- The state with the bytes `buf` on `IBUF`. -/
def State.onBuffer (s : State) (buf : List Byte) : State := { s with inp := { s.inp with ibuf := buf } }

/-- The value of five digits, most significant first (R28). -/
def digitSum (d0 d1 d2 d3 d4 : Nat) : Nat := d0 * 85 ^ 4 + d1 * 85 ^ 3 + d2 * 85 ^ 2 + d3 * 85 + d4

/-- The five bytes of a group are valid and spell these digits (R16, R56). -/
def HasDigits (g : Byte5) (d0 d1 d2 d3 d4 : Nat) : Prop :=
  inv g.b0 = some d0 ∧ inv g.b1 = some d1 ∧ inv g.b2 = some d2 ∧ inv g.b3 = some d3 ∧ inv g.b4 = some d4

/-- The leftmost invalid byte of a group is `c`, at local offset `i` (R73). -/
def FirstInvalid (g : Byte5) (i : Nat) (c : Byte) : Prop :=
  (bytes5 g)[i]? = some c ∧ inv c = none ∧ ∀ j b, j < i → (bytes5 g)[j]? = some b → inv b ≠ none

/-- A group starts with exactly `k` sentinels (R85). -/
def StartsWithSentinels (g : Byte5) (k : Nat) : Prop :=
  k ≤ 5 ∧ (∀ j, j < k → (bytes5 g)[j]? = some SENTINEL) ∧ (bytes5 g)[k]? ≠ some SENTINEL

/-- The number that bytes spell, first byte most significant (R84: the value `v` of a tail). -/
def bigEndian (l : List Byte) : Nat := l.foldl (fun v b => v * 256 + b.toNat) 0

/-- A tail: 1 to 3 bytes (R12, R84). -/
def IsTail (l : List Byte) : Prop := 1 ≤ l.length ∧ l.length ≤ 3

/-- The transactions the environment issues for the operations `is`, with `buf` on `IBUF`. -/
def transactions (is : List Instr) (buf : List Byte) : List Inputs := is.map fun i => ⟨encode i, buf⟩

/-- What an environment collects that issues the transactions of `is` one after another, one step each, appends the
result bytes and stops at the first error, which it notes with the number of the transaction, counted from `ci` (R66,
the programs of 95_test_vectors.md). `none`: a step did not complete. -/
def collect : (is : List Instr) → (ci : Nat) → State → Option (Except (Nat × Error) (List Byte))
  | [], _, _ => some (.ok [])
  | i :: is, ci, s =>
    match step s with
    | .next t =>
      match errorAt (formatOf i) t.out with
      | some e => some (.error (ci, e))
      | none =>
        match collect is (ci + 1) t with
        | some (.ok l) => some (.ok (bytesAt (formatOf i) t.out ++ l))
        | other => other
    | .fault _ => none
    | .refused _ => none

/-- What the environment collects when it issues the transactions of `is` at `s` and nothing else. -/
def issueAll (is : List Instr) (s : State) : Option (Except (Nat × Error) (List Byte)) :=
  collect is 0 { s with pending := transactions is s.inp.ibuf }

/-- The chunks `0` to `k - 1` of the buffer as `ENC` operations (R66). -/
def encOps (buf : List Byte) (k : Nat) : List Instr := (List.range k).map fun ci => .enc (chunkAt buf (4 * ci))

/-- The groups `0` to `g - 1` of the buffer, each through the chunk operation `op` (R66). -/
def groupOps (op : Byte5 → Instr) (buf : List Byte) (g : Nat) : List Instr :=
  (List.range g).map fun ci => op (groupAt buf (5 * ci))

end Sys2Proof.Machine
end

