-- ==== Sys2Proof/Certificates/Slice0/Obligations.lean ====
section
/-! DEFINITION. The statements about the model. Their terms (`Completes`, `reading`, `HasDigits`, ...) are in Safety.lean.
`Completes i s p` says that `exec i s` answers a next state whose output ports satisfy `p`, with the input ports
(`IBUF` among them) and the environment's schedule unchanged. -/

open Sys2Proof Sys2Proof.Machine

/-! ### Tables and byte order -/

/-- R17 (derived by the spec from R14 and R16): the two tables are inverse to each other, 85 of the 256 byte values are
valid, and 8 of the 93 between 0x21 and 0x7D are not. The punctuation entries of both tables are log 14. -/
def Obligations.TablesAreInverse : Prop :=
  (∀ d, d < 85 → inv (alpha d) = some d) ∧
  (∀ c d, inv c = some d → d < 85 ∧ alpha d = c) ∧
  ((List.range 256).filter fun n => (inv (BitVec.ofNat 8 n)).isSome).length = 85 ∧
  ((List.range 93).filter fun n => (inv (BitVec.ofNat 8 (n + 0x21))).isNone).length = 8

/-- R50, R51: 85 distinct bytes in 0x21 to 0x7D, digits then lowercase then uppercase, each class ascending; `'0'` is the
zero digit and `'#'` has the value 84 (log 14). -/
def Obligations.AlphabetOrder : Prop :=
  alphaTable.length = 85 ∧ alphaTable.Nodup ∧
  (∀ d, d < 85 → 0x21 ≤ (alpha d).toNat ∧ (alpha d).toNat ≤ 0x7D) ∧
  (∀ k, k < 10 → (alpha k).toNat = 0x30 + k) ∧
  (∀ k, k < 26 → (alpha (10 + k)).toNat = 0x61 + k) ∧
  (∀ k, k < 26 → (alpha (36 + k)).toNat = 0x41 + k) ∧
  zeroCh = 0x30 ∧ alpha 84 = SENTINEL

/-- R54 (derived by the spec): the invalid bytes are those below 0x21, those above 0x7D and eight in between. Which eight
rests on log 14. -/
def Obligations.InvalidByteClasses : Prop :=
  ∀ c : Byte, inv c = none ↔
    c.toNat ≤ 0x20 ∨ 0x7E ≤ c.toNat ∨ c.toNat ∈ [0x22, 0x27, 0x2C, 0x3B, 0x5C, 0x5F, 0x60, 0x7C]

/-- R31, R28, R11: the raw side is big-endian both ways, and a chunk or group is read at its offset in buffer order
(R34, R35). -/
def Obligations.BytesAreBigEndian : Prop :=
  (∀ c : Byte4, be32 c ≤ MAX32 ∧ be32 c = bigEndian (bytes4 c) ∧ bytesBe32 (be32 c) = c) ∧
  (∀ n, n ≤ MAX32 → be32 (bytesBe32 n) = n) ∧
  (∀ (buf : List Byte) (off : Nat), off + 4 ≤ buf.length →
    ∀ j, j < 4 → (bytes4 (chunkAt buf off))[j]? = buf[off + j]?) ∧
  (∀ (buf : List Byte) (off : Nat), off + 5 ≤ buf.length →
    ∀ j, j < 5 → (bytes5 (groupAt buf off))[j]? = buf[off + j]?)

/-! ### Requests and steps -/

/-- Decoding the request word of any well-formed operation gives it back, with every operand (R59, R60, R61). -/
def Obligations.DecodeOfEncode : Prop :=
  ∀ i : Instr, i.wellFormed = true → decode (encode i) = .ok i

/-- R59, R60 (the spec's decisions D4, D5): a decoded operation is well-formed, and its row of the opcode table is the
one whose match value the word has under the mask 0x780000000000. -/
def Obligations.DecodedRequestMatchesItsRow : Prop :=
  ∀ (w : Req) (i : Instr), decode w = .ok i →
    i.wellFormed = true ∧ w &&& 0x780000000000#47 = (i.opcode.setWidth 47) <<< 43 ∧
    encode i &&& 0x780000000000#47 = w &&& 0x780000000000#47

/-- R61 (the spec's decision D4): ignored request fields have no effect. The words need only agree on `OP` and on the
fields the operation reads. -/
def Obligations.IgnoredFieldsHaveNoEffect : Prop :=
  ∀ w w' : Req, Req.op w = Req.op w' →
    (Req.op w = 0x0 → (bytes5 (Req.din w)).take 4 = (bytes5 (Req.din w')).take 4 → decode w = decode w') ∧
    (Req.op w = 0x5 → Req.tlen w = Req.tlen w' →
      (bytes5 (Req.din w)).take (Req.tlen w).toNat = (bytes5 (Req.din w')).take (Req.tlen w).toNat →
      decode w = decode w') ∧
    ((Req.op w).toNat < 8 → Req.op w ≠ 0x5 → Req.din w = Req.din w' → decode w = decode w') ∧
    (8 ≤ (Req.op w).toNat → decode w = decode w')

/-- Words of the vectors of 95_test_vectors.md sections 2.1 to 2.6, one of each family and of each `TLEN`. -/
def Obligations.RequestWordsDecode : Prop :=
  decode 0x07864FD26FFF#47 = .ok (.enc ⟨0x86, 0x4F, 0xD2, 0x6F⟩) ∧
  decode 0x0848656C6C6F#47 = .ok (.dec ⟨0x48, 0x65, 0x6C, 0x6C, 0x6F⟩) ∧
  decode 0x10256E536331#47 = .ok (.val ⟨0x25, 0x6E, 0x53, 0x63, 0x31⟩) ∧
  decode 0x18576F726C64#47 = .ok (.decu ⟨0x57, 0x6F, 0x72, 0x6C, 0x64⟩) ∧
  decode 0x202300FF5F20#47 = .ok (.tdet ⟨0x23, 0x00, 0xFF, 0x5F, 0x20⟩) ∧
  decode 0x298600000000#47 = .ok (.tenc [0x86]) ∧
  decode 0x2AB559000000#47 = .ok (.tenc [0xB5, 0x59]) ∧
  decode 0x2B864FD20000#47 = .ok (.tenc [0x86, 0x4F, 0xD2]) ∧
  decode 0x302323393630#47 = .ok (.tdec ⟨0x23, 0x23, 0x39, 0x36, 0x30⟩) ∧
  decode 0x400000000000#47 = .ok .encs ∧ decode 0x480000000000#47 = .ok .decs ∧
  decode 0x500000000000#47 = .ok .encp ∧ decode 0x580000000000#47 = .ok .decp ∧
  decode 0x600000000000#47 = .ok .vals ∧ decode 0x680000000000#47 = .ok .decus

/-- A step presents the environment's next transaction on the input ports and runs the operation its word decodes to
(R13, D1; log 1); with nothing to issue the state stays as it is (the model's choice, log 3). -/
def Obligations.StepRunsTheDecodedRequest : Prop :=
  (∀ (s : State) (t : Inputs) (rest : List Inputs) (i : Instr), s.pending = t :: rest → decode t.req = .ok i →
    step s = exec i { s with inp := t, pending := rest }) ∧
  (∀ s : State, s.pending = [] → step s = .next s)

/-- R62 (the spec's decisions D12, D17): a step refuses a request with `OP` 0x7, 0xE or 0xF, or `TENC` with `TLEN` not 1
to 3, by name; every other request completes, and no step faults. -/
def Obligations.OnlyReservedRequestsAreRefused : Prop :=
  ∀ (s : State) (t : Inputs) (rest : List Inputs), s.pending = t :: rest →
    (Req.op t.req ∈ [0x7, 0xE, 0xF] → step s = .refused (.reservedOp (Req.op t.req))) ∧
    (Req.op t.req = 0x5 → (Req.tlen t.req).toNat ∉ [1, 2, 3] →
      step s = .refused (.illegalTailLength (Req.tlen t.req).toNat)) ∧
    (Req.op t.req ∉ [0x7, 0xE, 0xF] → (Req.op t.req = 0x5 → (Req.tlen t.req).toNat ∈ [1, 2, 3]) →
      ∃ t', step s = .next t' ∧ t'.inp = t ∧ t'.pending = rest)

/-- R121, R38, R13: every operation, on every operand and every buffer, runs to its end; it writes no input port, and
every byte of `IBUF` is as before. All thirteen constructors. -/
def Obligations.EveryOperationCompletes : Prop :=
  ∀ (i : Instr) (s : State), i.wellFormed = true →
    Completes i s fun _ => True

/-- R62, U3 (the spec's decision D12): `TENC` on a tail that is not 1 to 3 bytes long is no request and is refused. -/
def Obligations.TencOfIllegalLengthIsRefused : Prop :=
  ∀ (l : List Byte) (s : State), ¬ IsTail l → exec (.tenc l) s = .refused (.illegalTailLength l.length)

/-! ### The chunk encoder -/

/-- R67: `ENC` delivers the five base-85 digits of the big-endian value, most significant first, through `ALPHA`. -/
def Obligations.EncDeliversBase85Digits : Prop :=
  ∀ (c : Byte4) (s : State),
    (∀ (tlen : BitVec 3) (b : Byte), decode (packReq 0x0 tlen ⟨c.b0, c.b1, c.b2, c.b3, b⟩) = .ok (.enc c)) ∧
    be32 c < 85 ^ 5 ∧
    Completes (.enc c) s fun o =>
      o.st = .ok ∧ o.olen = 5 ∧
      ∀ i, i < 5 → (bytes5 o.dout)[i]? = some (alpha (be32 c / 85 ^ (4 - i) % 85))

/-- R68: `ENC` raises no error and is injective: "two different chunks give two different groups". -/
def Obligations.EncIsTotalAndInjective : Prop :=
  (∀ (c : Byte4) (s : State), Completes (.enc c) s fun o => o.st = .ok) ∧
  ∀ (c c' : Byte4) (s s' t t' : State), exec (.enc c) s = .next t → exec (.enc c') s' = .next t' →
    t.out.dout = t'.out.dout → c = c'

/-- R69 (derived by the spec): every output byte of `ENC` is an alphabet byte in 0x21 to 0x7D; the first is one of
`ALPHA[0]` to `ALPHA[82]`, so never `'$'` or `'#'` (those two by log 14). -/
def Obligations.EncNeverStartsWithSentinel : Prop :=
  ∀ (c : Byte4) (s : State), Completes (.enc c) s fun o =>
    (∀ b ∈ bytes5 o.dout, (∃ d, d < 85 ∧ b = alpha d) ∧ 0x21 ≤ b.toNat ∧ b.toNat ≤ 0x7D) ∧
    (∃ d, d ≤ 82 ∧ o.dout.b0 = alpha d) ∧ o.dout.b0 ≠ SENTINEL ∧ o.dout.b0 ≠ 0x24

/-- R70 (derived by the spec): `ENC` keeps order: of two chunks the one of smaller value has the digit sequence that is
lexicographically below. -/
def Obligations.EncKeepsOrder : Prop :=
  ∀ (c c' : Byte4) (s s' t t' : State), be32 c < be32 c' →
    exec (.enc c) s = .next t → exec (.enc c') s' = .next t' →
    ∃ i d d', i < 5 ∧
      (∀ j, j < i → ((bytes5 t.out.dout).map inv)[j]? = ((bytes5 t'.out.dout).map inv)[j]?) ∧
      ((bytes5 t.out.dout).map inv)[i]? = some (some d) ∧
      ((bytes5 t'.out.dout).map inv)[i]? = some (some d') ∧ d < d'

/-! ### The chunk decoder -/

/-- R72: `DEC` reports the leftmost invalid byte; with five valid bytes it reports a value above 2^32 - 1 at offset 0,
and otherwise delivers the four bytes whose big-endian value is the digits' value. -/
def Obligations.DecChecksAndDecodes : Prop :=
  ∀ (g : Byte5) (s : State),
    (∀ tlen : BitVec 3, decode (packReq 0x1 tlen g) = .ok (.dec g)) ∧
    (∀ i c, FirstInvalid g i c → Completes (.dec g) s fun o =>
      o.st = .invalidByte ∧ o.epos.toNat = i ∧ o.ebyte = c ∧ o.olen = 0) ∧
    (∀ d0 d1 d2 d3 d4, HasDigits g d0 d1 d2 d3 d4 → 4294967295 < digitSum d0 d1 d2 d3 d4 →
      Completes (.dec g) s fun o => o.st = .invalidChunk ∧ o.epos = 0 ∧ o.olen = 0) ∧
    (∀ d0 d1 d2 d3 d4, HasDigits g d0 d1 d2 d3 d4 → digitSum d0 d1 d2 d3 d4 ≤ 4294967295 →
      Completes (.dec g) s fun o => o.st = .ok ∧ o.olen = 4 ∧
        be32 ⟨o.dout.b0, o.dout.b1, o.dout.b2, o.dout.b3⟩ = digitSum d0 d1 d2 d3 d4)

/-- 41_chunk_decoder.md, DEC (R74): a group of valid bytes is rejected exactly when its digit sequence is
lexicographically above 82, 23, 54, 12, 0; in particular always with first digit 83 or 84 and never with one up to 81. -/
def Obligations.DecRejectsDigitsAboveTheLimit : Prop :=
  ∀ (g : Byte5) (s : State) (d0 d1 d2 d3 d4 : Nat), HasDigits g d0 d1 d2 d3 d4 →
    (Completes (.dec g) s fun o => o.st = .invalidChunk ↔
      82 < d0 ∨ (d0 = 82 ∧ (23 < d1 ∨ (d1 = 23 ∧ (54 < d2 ∨ (d2 = 54 ∧ (12 < d3 ∨ (d3 = 12 ∧ 0 < d4)))))))) ∧
    (83 ≤ d0 → Completes (.dec g) s fun o => o.st = .invalidChunk) ∧
    (d0 ≤ 81 → Completes (.dec g) s fun o => o.st = .ok)

/-- R76 (derived by the spec): on one chunk, decoding inverts encoding and encoding inverts decoding. -/
def Obligations.ChunkRoundTrip : Prop :=
  (∀ (c : Byte4) (s t : State), exec (.enc c) s = .next t →
    Completes (.dec t.out.dout) t fun o => o.st = .ok ∧ bytesAt .chunk o = bytes4 c) ∧
  (∀ (g : Byte5) (s t : State), exec (.dec g) s = .next t → t.out.st = .ok →
    Completes (.enc ⟨t.out.dout.b0, t.out.dout.b1, t.out.dout.b2, t.out.dout.b3⟩) t fun o => o.dout = g)

/-- R78: `VAL` makes the walk of `DEC` and gives a class and no bytes: bad byte at a position, too large, or fine. -/
def Obligations.ValClassifies : Prop :=
  ∀ (g : Byte5) (s : State),
    (∀ tlen : BitVec 3, decode (packReq 0x2 tlen g) = .ok (.val g)) ∧
    (∀ i c, FirstInvalid g i c → Completes (.val g) s fun o =>
      o.st = .invalidByte ∧ o.epos.toNat = i ∧ o.ebyte = c ∧ o.olen = 0) ∧
    (∀ d0 d1 d2 d3 d4, HasDigits g d0 d1 d2 d3 d4 → 4294967295 < digitSum d0 d1 d2 d3 d4 →
      Completes (.val g) s fun o => o.st = .invalidChunk ∧ o.epos = 0 ∧ o.olen = 0) ∧
    (∀ d0 d1 d2 d3 d4, HasDigits g d0 d1 d2 d3 d4 → digitSum d0 d1 d2 d3 d4 ≤ 4294967295 →
      Completes (.val g) s fun o => o.st = .ok ∧ o.olen = 0)

/-- R79 (the spec's decision D22): the class of `VAL` and the outcome of `DEC` on the same bytes correspond, with the
same position and byte. -/
def Obligations.ValAgreesWithDec : Prop :=
  ∀ (g : Byte5) (s s' t t' : State), exec (.val g) s = .next t → exec (.dec g) s' = .next t' →
    t.out.st = t'.out.st ∧ errorAt .chunk t.out = errorAt .chunk t'.out ∧ t.out.olen = 0

/-- R81: `DECU` reports no error on any operand, and on a group that `VAL` passes its four bytes are those of the digits'
value and of `DEC`. That `OLEN` is 4 on every other group is R82, the spec's decision D14; the bytes are free there
(log 7). -/
def Obligations.DecuDecodesValidatedGroups : Prop :=
  ∀ (g : Byte5) (s : State),
    (∀ tlen : BitVec 3, decode (packReq 0x3 tlen g) = .ok (.decu g)) ∧
    (Completes (.decu g) s fun o => o.st = .ok ∧ o.olen = 4) ∧
    (∀ s' v s'' u : State, exec (.val g) s' = .next v → v.out.st = .ok → exec (.dec g) s'' = .next u →
      ∃ d0 d1 d2 d3 d4, HasDigits g d0 d1 d2 d3 d4 ∧
        Completes (.decu g) s fun o => o.st = .ok ∧ o.olen = 4 ∧
          be32 ⟨o.dout.b0, o.dout.b1, o.dout.b2, o.dout.b3⟩ = digitSum d0 d1 d2 d3 d4 ∧
          bytesAt .chunk o = bytesAt .chunk u.out)

/-! ### The tail unit -/

/-- R85 (that it is an operation of its own is the spec's decision D13): `TDET` counts the leading `'#'` bytes and never
fails. -/
def Obligations.TdetCountsLeadingSentinels : Prop :=
  ∀ (g : Byte5) (s : State),
    (∀ tlen : BitVec 3, decode (packReq 0x4 tlen g) = .ok (.tdet g)) ∧
    ∀ k, StartsWithSentinels g k → Completes (.tdet g) s fun o =>
      o.st = .ok ∧ o.olen = 0 ∧ o.diff.toNat = k ∧ (o.istail = true ↔ g.b0 = SENTINEL)

/-- R89: `TENC` delivers `4 - r` sentinels and then the last `r + 1` digits of the tail's big-endian value. -/
def Obligations.TencDeliversTailGroup : Prop :=
  ∀ (l : List Byte) (s : State), IsTail l →
    (∀ din : Byte5, (bytes5 din).take l.length = l →
      decode (packReq 0x5 (BitVec.ofNat 3 l.length) din) = .ok (.tenc l)) ∧
    Completes (.tenc l) s fun o =>
      o.st = .ok ∧ o.olen = 5 ∧
      (∀ i, i < 4 - l.length → (bytes5 o.dout)[i]? = some SENTINEL) ∧
      (∀ i, 4 - l.length ≤ i → i < 5 → (bytes5 o.dout)[i]? = some (alpha (bigEndian l / 85 ^ (4 - i) % 85)))

/-- R90 (derived by the spec): the overwrite destroys nothing: every character it replaces in the group that `ENC` gives
for the padded chunk is `'0'`. -/
def Obligations.TencOverwritesOnlyZeroDigits : Prop :=
  ∀ (l : List Byte) (p : Byte4) (s t u : State), IsTail l → bytes4 p = List.replicate (4 - l.length) 0 ++ l →
    exec (.enc p) s = .next t → exec (.tenc l) s = .next u →
    (∀ i, i < 4 - l.length → (bytes5 t.out.dout)[i]? = some 0x30) ∧
    (bytes5 u.out.dout).drop (4 - l.length) = (bytes5 t.out.dout).drop (4 - l.length)

/-- R87 (derived by the spec): the detector's count on a group that `TENC` made is exact. -/
def Obligations.TdetIsExactOnTencGroups : Prop :=
  ∀ (l : List Byte) (s t : State), IsTail l → exec (.tenc l) s = .next t →
    Completes (.tdet t.out.dout) t fun o => o.istail = true ∧ o.diff.toNat = 4 - l.length

/-- R92: `TDEC` with `k` leading sentinels drives `DIFF` with `k` in every case; a count of 0, 4 or 5 is `InvalidTail`;
else the leftmost invalid byte is reported; else a value above `256^(4-k) - 1` is `InvalidTail`; else the last `4 - k`
bytes of the value are delivered. -/
def Obligations.TdecChecksAndDecodes : Prop :=
  ∀ (g : Byte5) (s : State) (k : Nat), StartsWithSentinels g k →
    (∀ tlen : BitVec 3, decode (packReq 0x6 tlen g) = .ok (.tdec g)) ∧
    (k < 1 ∨ 3 < k → Completes (.tdec g) s fun o => o.st = .invalidTail ∧ o.olen = 0 ∧ o.diff.toNat = k) ∧
    (1 ≤ k → k ≤ 3 →
      (∀ i c, FirstInvalid g i c → Completes (.tdec g) s fun o =>
        o.st = .invalidByte ∧ o.epos.toNat = i ∧ o.ebyte = c ∧ o.olen = 0 ∧ o.diff.toNat = k) ∧
      (∀ d0 d1 d2 d3 d4, HasDigits g d0 d1 d2 d3 d4 →
        (256 ^ (4 - k) - 1 < digitSum 0 (if 2 ≤ k then 0 else d1) (if 3 ≤ k then 0 else d2) d3 d4 →
          Completes (.tdec g) s fun o => o.st = .invalidTail ∧ o.olen = 0 ∧ o.diff.toNat = k) ∧
        (digitSum 0 (if 2 ≤ k then 0 else d1) (if 3 ≤ k then 0 else d2) d3 d4 ≤ 256 ^ (4 - k) - 1 →
          Completes (.tdec g) s fun o => o.st = .ok ∧ o.olen.toNat = 4 - k ∧ o.diff.toNat = k ∧
            bigEndian (bytesAt .chunk o) = digitSum 0 (if 2 ≤ k then 0 else d1) (if 3 ≤ k then 0 else d2) d3 d4)))

/-- R95 (derived by the spec): `TDEC` inverts `TENC` on every tail, and `TENC` inverts `TDEC` on every group it accepts. -/
def Obligations.TailRoundTrip : Prop :=
  (∀ (l : List Byte) (s t : State), IsTail l → exec (.tenc l) s = .next t →
    Completes (.tdec t.out.dout) t fun o =>
      o.st = .ok ∧ bytesAt .chunk o = l ∧ o.diff.toNat = 4 - l.length) ∧
  (∀ (g : Byte5) (s t : State), exec (.tdec g) s = .next t → t.out.st = .ok →
    IsTail (bytesAt .chunk t.out) ∧
    Completes (.tenc (bytesAt .chunk t.out)) t fun o => o.dout = g)

/-! ### The stream sequencer -/

/-- R99: `ENCS` fails with the buffer's length when that is no multiple of 4; otherwise chunk `ci` of `IBUF` through
`ENC` stands at `5*ci` of `OBUF`. -/
def Obligations.EncsEncodesEveryChunk : Prop :=
  ∀ s : State,
    (∀ (tlen : BitVec 3) (din : Byte5), decode (packReq 0x8 tlen din) = .ok .encs) ∧
    (s.inp.ibuf.length % 4 ≠ 0 → Completes .encs s fun o =>
      o.st = .invalidLength ∧ o.elen = s.inp.ibuf.length ∧ o.olenS = 0) ∧
    (s.inp.ibuf.length % 4 = 0 → Completes .encs s fun o =>
      o.st = .ok ∧ o.olenS = 5 * (s.inp.ibuf.length / 4) ∧ o.obuf.length = o.olenS ∧
      ∀ ci c u, ci < s.inp.ibuf.length / 4 → memRead s.inp.ibuf (4 * ci) 4 = bytes4 c → exec (.enc c) s = .next u →
        memRead o.obuf (5 * ci) 5 = bytes5 u.out.dout)

/-- R100: `DECS` tests the length first, then decodes group after group and stops at the first error, its position
rebased to the buffer; on success group `ci` of `IBUF` through `DEC` stands at `4*ci` of `OBUF`. -/
def Obligations.DecsDecodesEveryGroup : Prop :=
  ∀ s : State,
    (∀ (tlen : BitVec 3) (din : Byte5), decode (packReq 0x9 tlen din) = .ok .decs) ∧
    (s.inp.ibuf.length % 5 ≠ 0 → Completes .decs s fun o =>
      o.st = .invalidLength ∧ o.elen = s.inp.ibuf.length ∧ o.olenS = 0) ∧
    (s.inp.ibuf.length % 5 = 0 →
      (∀ ci u, ci < s.inp.ibuf.length / 5 →
        (∀ cj v, cj < ci → exec (.dec (groupAt s.inp.ibuf (5 * cj))) s = .next v → v.out.st = .ok) →
        exec (.dec (groupAt s.inp.ibuf (5 * ci))) s = .next u → u.out.st ≠ .ok →
        Completes .decs s fun o => o.st = u.out.st ∧ o.olenS = 0 ∧
          o.eposAbs = 5 * ci + u.out.epos.toNat ∧ (u.out.st = .invalidByte → o.ebyte = u.out.ebyte)) ∧
      ((∀ cj v, cj < s.inp.ibuf.length / 5 → exec (.dec (groupAt s.inp.ibuf (5 * cj))) s = .next v →
          v.out.st = .ok) →
        Completes .decs s fun o =>
          o.st = .ok ∧ o.olenS = 4 * (s.inp.ibuf.length / 5) ∧ o.obuf.length = o.olenS ∧
          ∀ ci u, ci < s.inp.ibuf.length / 5 → exec (.dec (groupAt s.inp.ibuf (5 * ci))) s = .next u →
            memRead o.obuf (4 * ci) 4 = bytesAt .chunk u.out))

/-- R101: `ENCP` never fails; whole chunks as `ENC` gives them, then, when bytes are left over, their tail group as
`TENC` gives it, as the last five bytes. -/
def Obligations.EncpAppendsTailGroup : Prop :=
  ∀ s : State,
    (∀ (tlen : BitVec 3) (din : Byte5), decode (packReq 0xA tlen din) = .ok .encp) ∧
    Completes .encp s fun o =>
      o.st = .ok ∧ o.obuf.length = o.olenS ∧
      o.olenS = 5 * (s.inp.ibuf.length / 4) + (if s.inp.ibuf.length % 4 = 0 then 0 else 5) ∧
      (∀ ci c u, ci < s.inp.ibuf.length / 4 → memRead s.inp.ibuf (4 * ci) 4 = bytes4 c → exec (.enc c) s = .next u →
        memRead o.obuf (5 * ci) 5 = bytes5 u.out.dout) ∧
      (∀ l u, s.inp.ibuf.length % 4 ≠ 0 → l = s.inp.ibuf.drop (4 * (s.inp.ibuf.length / 4)) →
        exec (.tenc l) s = .next u → o.obuf.drop (5 * (s.inp.ibuf.length / 4)) = bytes5 u.out.dout)

/-- R102: `DECP` gives the empty result on the empty buffer, tests the length next, and then decodes as `DECS` unless
the last group starts with `'#'`; then the groups before it are decoded as by `DECS`, an error there winning, and the
last by `TDEC`, its byte position rebased to `ILEN - 5`. -/
def Obligations.DecpDecodesBodyThenTail : Prop :=
  ∀ s : State,
    (∀ (tlen : BitVec 3) (din : Byte5), decode (packReq 0xB tlen din) = .ok .decp) ∧
    (s.inp.ibuf = [] → Completes .decp s fun o => o.st = .ok ∧ o.olenS = 0 ∧ o.obuf = []) ∧
    (s.inp.ibuf.length % 5 ≠ 0 → Completes .decp s fun o =>
      o.st = .invalidLength ∧ o.elen = s.inp.ibuf.length ∧ o.olenS = 0) ∧
    (s.inp.ibuf ≠ [] → s.inp.ibuf.length % 5 = 0 →
      (s.inp.ibuf[s.inp.ibuf.length - 5]? ≠ some SENTINEL → ∀ u, exec .decs s = .next u →
        Completes .decp s fun o => reading .decp o = reading .decs u.out) ∧
      (s.inp.ibuf[s.inp.ibuf.length - 5]? = some SENTINEL → ∀ u v,
        exec .decs (s.onBuffer (s.inp.ibuf.take (s.inp.ibuf.length - 5))) = .next u →
        exec (.tdec (groupAt s.inp.ibuf (s.inp.ibuf.length - 5))) s = .next v →
        (u.out.st ≠ .ok → Completes .decp s fun o => reading .decp o = reading .decs u.out) ∧
        (u.out.st = .ok → v.out.st = .invalidTail → Completes .decp s fun o =>
          o.st = .invalidTail ∧ o.olenS = 0) ∧
        (u.out.st = .ok → v.out.st = .invalidByte → Completes .decp s fun o =>
          o.st = .invalidByte ∧ o.olenS = 0 ∧
          o.eposAbs = s.inp.ibuf.length - 5 + v.out.epos.toNat ∧ o.ebyte = v.out.ebyte) ∧
        (u.out.st = .ok → v.out.st = .ok → Completes .decp s fun o =>
          o.st = .ok ∧ o.obuf = u.out.obuf ++ bytesAt .chunk v.out ∧
          o.olenS = 4 * (s.inp.ibuf.length / 5 - 1) + (4 - v.out.diff.toNat))))

/-- R103 and its consequences: on a buffer whose last group starts with `'#'`, `DECP` never reports that group as
`InvalidChunk`; a group of valid bytes that starts with `'#'` before the last is `InvalidChunk` at its offset, when no
group before it is in error. -/
def Obligations.DecpAmbiguityGuard : Prop :=
  (∀ s t : State, s.inp.ibuf ≠ [] → s.inp.ibuf.length % 5 = 0 →
    s.inp.ibuf[s.inp.ibuf.length - 5]? = some SENTINEL → exec .decp s = .next t →
    t.out.st = .invalidChunk → t.out.eposAbs < s.inp.ibuf.length - 5) ∧
  (∀ (s : State) (ci d0 d1 d2 d3 d4 : Nat), s.inp.ibuf.length % 5 = 0 → 5 * ci + 5 < s.inp.ibuf.length →
    (∀ cj v, cj < ci → exec (.dec (groupAt s.inp.ibuf (5 * cj))) s = .next v → v.out.st = .ok) →
    HasDigits (groupAt s.inp.ibuf (5 * ci)) d0 d1 d2 d3 d4 → s.inp.ibuf[5 * ci]? = some SENTINEL →
    Completes .decp s fun o => o.st = .invalidChunk ∧ o.eposAbs = 5 * ci ∧ o.olenS = 0)

/-- R106 (the equality of the errors is the spec's decision D24): on every buffer `VALS` ends as `DECS` does, with the
same error, and delivers no byte. -/
def Obligations.ValsAgreesWithDecs : Prop :=
  ∀ s : State,
    (∀ (tlen : BitVec 3) (din : Byte5), decode (packReq 0xC tlen din) = .ok .vals) ∧
    ∀ u, exec .decs s = .next u → Completes .vals s fun o =>
      o.st = u.out.st ∧ errorAt .sequencer o = errorAt .sequencer u.out ∧ o.olenS = 0

/-- R107 (what holds outside the precondition is the spec's decision D14; log 7): `DECUS` never reports an error; on a
buffer that `VALS` passes its result is that of `DECS`. -/
def Obligations.DecusDecodesValidatedBuffers : Prop :=
  ∀ s : State,
    (∀ (tlen : BitVec 3) (din : Byte5), decode (packReq 0xD tlen din) = .ok .decus) ∧
    (Completes .decus s fun o => o.st = .ok) ∧
    ∀ v u, exec .vals s = .next v → v.out.st = .ok → exec .decs s = .next u →
      Completes .decus s fun o =>
        o.st = .ok ∧ o.olenS = 4 * (s.inp.ibuf.length / 5) ∧ o.obuf = u.out.obuf ∧ u.out.st = .ok

/-- R66: the six sequencer operations expand into chunk transactions, issued one step each by the environment (log 1),
which stops at the first error and rebases it (R98). `DECP`'s `TDET` is evaluated beside the issued steps: it says which
they are. The empty buffer of `DECP` is in `DecpDecodesBodyThenTail`. -/
def Obligations.SequencerExpandsIntoTransactions : Prop :=
  ∀ s : State,
    (s.inp.ibuf.length % 4 = 0 → ∃ l, issueAll (encOps s.inp.ibuf (s.inp.ibuf.length / 4)) s = some (.ok l) ∧
      Completes .encs s fun o => o.st = .ok ∧ o.obuf = l) ∧
    (∃ l, issueAll (encOps s.inp.ibuf (s.inp.ibuf.length / 4) ++
        (if s.inp.ibuf.length % 4 = 0 then [] else [.tenc (s.inp.ibuf.drop (4 * (s.inp.ibuf.length / 4)))])) s
          = some (.ok l) ∧
      Completes .encp s fun o => o.st = .ok ∧ o.obuf = l) ∧
    (s.inp.ibuf.length % 5 = 0 → ∃ res, issueAll (groupOps .dec s.inp.ibuf (s.inp.ibuf.length / 5)) s = some res ∧
      Completes .decs s fun o =>
        (∀ l, res = .ok l → o.st = .ok ∧ o.obuf = l) ∧
        (∀ ci e, res = .error (ci, e) → errorAt .sequencer o = some (e.rebase (5 * ci)))) ∧
    (s.inp.ibuf.length % 5 = 0 → ∃ res, issueAll (groupOps .val s.inp.ibuf (s.inp.ibuf.length / 5)) s = some res ∧
      Completes .vals s fun o =>
        (∀ l, res = .ok l → o.st = .ok ∧ l = []) ∧
        (∀ ci e, res = .error (ci, e) → errorAt .sequencer o = some (e.rebase (5 * ci)))) ∧
    (validateStrict s.inp.ibuf = .ok () →
      ∃ l, issueAll (groupOps .decu s.inp.ibuf (s.inp.ibuf.length / 5)) s = some (.ok l) ∧
        Completes .decus s fun o => o.st = .ok ∧ o.obuf = l) ∧
    (s.inp.ibuf ≠ [] → s.inp.ibuf.length % 5 = 0 → ∀ u,
      exec (.tdet (groupAt s.inp.ibuf (s.inp.ibuf.length - 5))) s = .next u →
      ∃ res, issueAll
          (if u.out.istail then groupOps .dec s.inp.ibuf (s.inp.ibuf.length / 5 - 1) ++
              [.tdec (groupAt s.inp.ibuf (s.inp.ibuf.length - 5))]
            else groupOps .dec s.inp.ibuf (s.inp.ibuf.length / 5)) s = some res ∧
        Completes .decp s fun o =>
          (∀ l, res = .ok l → o.st = .ok ∧ o.obuf = l) ∧
          (∀ ci e, res = .error (ci, e) → errorAt .sequencer o = some (e.rebase (5 * ci))))

/-! ### Properties of whole buffers -/

/-- P1 of 95_test_vectors.md (R109): strict decode inverts strict encode. -/
def Obligations.StrictRoundTrip : Prop :=
  ∀ (b : List Byte) (s : State), b.length % 4 = 0 →
    ∃ t, exec .encs (s.onBuffer b) = .next t ∧ t.out.st = .ok ∧
      Completes .decs (t.onBuffer t.out.obuf) fun o => o.st = .ok ∧ o.obuf = b

/-- P2 of 95_test_vectors.md (R109, R104 (a)): padded decode inverts padded encode, on every buffer. -/
def Obligations.PaddedRoundTrip : Prop :=
  ∀ (b : List Byte) (s : State),
    ∃ t, exec .encp (s.onBuffer b) = .next t ∧ t.out.st = .ok ∧
      Completes .decp (t.onBuffer t.out.obuf) fun o => o.st = .ok ∧ o.obuf = b

/-- R64, R109 (derived by the spec): the encoding is canonical: what a decoder accepts is what the encoder of that
variant gives for the result. -/
def Obligations.AcceptedTextIsCanonical : Prop :=
  (∀ s t : State, exec .decs s = .next t → t.out.st = .ok →
    Completes .encs (t.onBuffer t.out.obuf) fun o => o.st = .ok ∧ o.obuf = s.inp.ibuf) ∧
  (∀ s t : State, exec .decp s = .next t → t.out.st = .ok →
    Completes .encp (t.onBuffer t.out.obuf) fun o => o.st = .ok ∧ o.obuf = s.inp.ibuf)

/-- P3 of 95_test_vectors.md (R58, R109): every byte that an encoder emits is an alphabet byte in 0x21 to 0x7D. -/
def Obligations.EncodersEmitPrintableAscii : Prop :=
  ∀ (i : Instr) (s t : State), i.wellFormed = true → i.opcode ∈ [0x0, 0x5, 0x8, 0xA] → exec i s = .next t →
    ∀ b ∈ bytesAt (formatOf i) t.out, (∃ d, d < 85 ∧ b = alpha d) ∧ 0x21 ≤ b.toNat ∧ b.toNat ≤ 0x7D

/-- P4 of 95_test_vectors.md and R108, R36 (their decode direction is derived by the spec): the length of every
sequencer result. -/
def Obligations.ResultLengths : Prop :=
  ∀ (s t : State),
    (exec .encs s = .next t → t.out.st = .ok → t.out.olenS = s.inp.ibuf.length / 4 * 5) ∧
    (exec .encp s = .next t → t.out.olenS = (s.inp.ibuf.length + 3) / 4 * 5) ∧
    (exec .decs s = .next t → t.out.st = .ok → t.out.olenS = s.inp.ibuf.length / 5 * 4) ∧
    (exec .decp s = .next t → t.out.st = .ok → ∀ u,
      exec (.tdet (groupAt s.inp.ibuf (s.inp.ibuf.length - 5))) s = .next u →
      t.out.olenS = s.inp.ibuf.length / 5 * 4 - (if s.inp.ibuf = [] then 0 else u.out.diff.toNat))

/-- R104 (derived by the spec; (b) and (c) rest on `'#'` = 84, log 14): the padded decoder reads what the strict encoder
makes; the strict decoder rejects a tail group at its offset. -/
def Obligations.VariantsMeetOnlyWithoutTail : Prop :=
  ∀ (b : List Byte) (s t : State),
    (b.length % 4 = 0 → exec .encs (s.onBuffer b) = .next t →
      Completes .decp (t.onBuffer t.out.obuf) fun o => o.st = .ok ∧ o.obuf = b) ∧
    (b.length % 4 ≠ 0 → exec .encp (s.onBuffer b) = .next t →
      Completes .decs (t.onBuffer t.out.obuf) fun o =>
        o.st = .invalidChunk ∧ o.eposAbs = 5 * (b.length / 4) ∧ o.olenS = 0)

/-- R44: the result bytes of a chunk depend on its own input bytes alone, for encode and for decode. -/
def Obligations.ChunksAreIndependent : Prop :=
  (∀ (b b' : List Byte) (s t t' : State) (ci : Nat), b.length % 4 = 0 → b'.length % 4 = 0 →
    4 * ci + 4 ≤ b.length → 4 * ci + 4 ≤ b'.length → memRead b (4 * ci) 4 = memRead b' (4 * ci) 4 →
    exec .encs (s.onBuffer b) = .next t → exec .encs (s.onBuffer b') = .next t' →
    memRead t.out.obuf (5 * ci) 5 = memRead t'.out.obuf (5 * ci) 5) ∧
  (∀ (b b' : List Byte) (s t t' : State) (ci : Nat), 5 * ci + 5 ≤ b.length → 5 * ci + 5 ≤ b'.length →
    memRead b (5 * ci) 5 = memRead b' (5 * ci) 5 →
    exec .decs (s.onBuffer b) = .next t → t.out.st = .ok → exec .decs (s.onBuffer b') = .next t' → t'.out.st = .ok →
    memRead t.out.obuf (4 * ci) 4 = memRead t'.out.obuf (4 * ci) 4)

/-- R45 (the spec's decision D15), R117 (2): the error of the groups further left wins: what follows whole groups that
fail does not change the error, as long as the length stays a multiple of 5; and what succeeds is decoded piece by
piece (R108). -/
def Obligations.LeftmostErrorWins : Prop :=
  ∀ (b b' : List Byte) (s t : State), b.length % 5 = 0 → b'.length % 5 = 0 →
    exec .decs (s.onBuffer b) = .next t →
    (t.out.st ≠ .ok → Completes .decs (s.onBuffer (b ++ b')) fun o => reading .decs o = reading .decs t.out) ∧
    (t.out.st = .ok → ∀ t', exec .decs (s.onBuffer b') = .next t' → t'.out.st = .ok →
      Completes .decs (s.onBuffer (b ++ b')) fun o => o.st = .ok ∧ o.obuf = t.out.obuf ++ t'.out.obuf)

/-- R108 (the second half derived by the spec): a text cut to a length that is no multiple of 5 is `InvalidLength` to
`DECS`, `DECP` and `VALS`; a strict text cut to whole groups decodes to that many bytes of the result. -/
def Obligations.TruncatedTexts : Prop :=
  (∀ (b : List Byte) (n : Nat) (s : State), n ≤ b.length → n % 5 ≠ 0 → ∀ i : Instr, i ∈ [.decs, .decp, .vals] →
    Completes i (s.onBuffer (b.take n)) fun o => o.st = .invalidLength ∧ o.elen = n ∧ o.olenS = 0) ∧
  (∀ (b : List Byte) (m : Nat) (s t : State), exec .decs (s.onBuffer b) = .next t → t.out.st = .ok →
    Completes .decs (s.onBuffer (b.take (5 * m))) fun o => o.st = .ok ∧ o.obuf = t.out.obuf.take (4 * m))

/-- R131 (derived by the spec): two padded texts cannot be joined when the first has a tail group: the joined text is
`InvalidChunk` at that group. -/
def Obligations.TailGroupIsLegalOnlyAtTheEnd : Prop :=
  ∀ (b text : List Byte) (s t : State), b.length % 4 ≠ 0 → exec .encp (s.onBuffer b) = .next t →
    text ≠ [] → text.length % 5 = 0 →
    Completes .decp (s.onBuffer (t.out.obuf ++ text)) fun o =>
      o.st = .invalidChunk ∧ o.eposAbs = 5 * (b.length / 4) ∧ o.olenS = 0

/-! ### Whole-machine rules -/

/-- R115 (derived by the spec): which status each operation can end with. -/
def Obligations.OperationsReportOnlyTheirErrors : Prop :=
  ∀ (i : Instr) (s t : State), exec i s = .next t → mayReport i t.out.st

/-- R13 (the spec's decision D1): what a claim may read after an operation is a function of its operands and of the
buffer alone, whatever stood on the ports, ran before or was drawn; for a chunk operation of its operands alone. The
unchecked operations only within their precondition (R129). -/
def Obligations.ResultDependsOnInputsAlone : Prop :=
  ∀ (i : Instr) (s s' t t' : State), preconditionHolds i s.inp.ibuf →
    (formatOf i = .sequencer → s.inp.ibuf = s'.inp.ibuf) →
    exec i s = .next t → exec i s' = .next t' → reading i t.out = reading i t'.out

/-- R118, R110 to R114: the ports stay legal for the request at the inputs: an error comes with no result byte, with the
buffer's length, with an invalid byte and its position, or with the start of a group. Every step keeps this. -/
def Obligations.StepKeepsPortsLegal : Prop :=
  ∀ s t : State, s.PortsLegal → step s = .next t → t.PortsLegal

/-- The reset state has legal ports (its port values are the model's choice, log 4 and log 5). -/
def Obligations.ResetPortsLegal : Prop := State.reset.PortsLegal

/-- R126, R30: after reset no transaction is under way, and the first is whichever the environment issues; it runs as any
other. That nothing is issued at reset, and that a step then changes nothing, is the model's choice (log 1, log 3). -/
def Obligations.ResetIssuesNothing : Prop :=
  State.reset.pending = [] ∧ step State.reset = .next State.reset ∧
  ∀ (i : Instr) (ibuf : List Byte), i.wellFormed = true →
    step { State.reset with pending := [⟨encode i, ibuf⟩] }
      = exec i { State.reset with inp := ⟨encode i, ibuf⟩ }

/-- D10 (the open parameter `POS_W`; log 10): where a bounded implementation has room for the encoded length, every
length and position that an operation reports fits its `posW` bits, so none wraps. -/
def Obligations.LengthsAndPositionsFitPosW : Prop :=
  ∀ (i : Instr) (s t : State) (posW : Nat), Config.fitsPosW posW s.inp.ibuf.length → formatOf i = .sequencer →
    preconditionHolds i s.inp.ibuf → exec i s = .next t →
    s.inp.ibuf.length < 2 ^ posW ∧ t.out.olenS < 2 ^ posW ∧
    (t.out.st = .invalidLength → t.out.elen < 2 ^ posW) ∧
    (t.out.st = .invalidByte ∨ t.out.st = .invalidChunk → t.out.eposAbs < 2 ^ posW)
end

