-- ==== Sys2Proof/Laws/Decode.lean ====
section
/-! SUPPORT. The request word: packing the three fields and reading them back. -/

namespace Sys2Proof

/-- The number a packed request is: each field at its place of rule R60. -/
theorem packReq_toNat (op : BitVec 4) (tlen : BitVec 3) (din : Byte5) :
    (packReq op tlen din).toNat =
      op.toNat * 2 ^ 43 + tlen.toNat * 2 ^ 40 + din.b0.toNat * 2 ^ 32 + din.b1.toNat * 2 ^ 24 +
        din.b2.toNat * 2 ^ 16 + din.b3.toNat * 2 ^ 8 + din.b4.toNat := by
  have join : ∀ a b i : Nat, b < 2 ^ i → a <<< i ||| b = a * 2 ^ i + b := by
    intro a b i h
    rw [← Nat.shiftLeft_add_eq_or_of_lt h, Nat.shiftLeft_eq]
  have := tlen.isLt
  have := din.b0.isLt
  have := din.b1.isLt
  have := din.b2.isLt
  have := din.b3.isLt
  have := din.b4.isLt
  simp only [packReq, BitVec.toNat_append]
  rw [join _ _ _ (by omega), join _ _ _ (by omega), join _ _ _ (by omega), join _ _ _ (by omega),
    join _ _ _ (by omega), join _ _ _ (by omega)]
  omega

@[simp] theorem op_packReq (op : BitVec 4) (tlen : BitVec 3) (din : Byte5) : Req.op (packReq op tlen din) = op := by
  apply BitVec.eq_of_toNat_eq
  have := op.isLt
  have := tlen.isLt
  have := din.b0.isLt
  have := din.b1.isLt
  have := din.b2.isLt
  have := din.b3.isLt
  have := din.b4.isLt
  simp only [Req.op, BitVec.extractLsb'_toNat, packReq_toNat, Nat.shiftRight_eq_div_pow]
  omega

@[simp] theorem tlen_packReq (op : BitVec 4) (tlen : BitVec 3) (din : Byte5) :
    Req.tlen (packReq op tlen din) = tlen := by
  apply BitVec.eq_of_toNat_eq
  have := op.isLt
  have := tlen.isLt
  have := din.b0.isLt
  have := din.b1.isLt
  have := din.b2.isLt
  have := din.b3.isLt
  have := din.b4.isLt
  simp only [Req.tlen, BitVec.extractLsb'_toNat, packReq_toNat, Nat.shiftRight_eq_div_pow]
  omega

@[simp] theorem din_packReq (op : BitVec 4) (tlen : BitVec 3) (din : Byte5) : Req.din (packReq op tlen din) = din := by
  obtain ⟨a, b, c, d, e⟩ := din
  have := op.isLt
  have := tlen.isLt
  have := a.isLt
  have := b.isLt
  have := c.isLt
  have := d.isLt
  have := e.isLt
  simp only [Req.din, Byte5.mk.injEq]
  refine ⟨?_, ?_, ?_, ?_, ?_⟩ <;>
    (apply BitVec.eq_of_toNat_eq
     simp only [BitVec.extractLsb'_toNat, packReq_toNat, Nat.shiftRight_eq_div_pow]
     omega)

/-- A request is its three fields and nothing more. -/
theorem packReq_fields (w : Req) : packReq (Req.op w) (Req.tlen w) (Req.din w) = w := by
  apply BitVec.eq_of_toNat_eq
  have := w.isLt
  simp only [packReq_toNat, Req.op, Req.tlen, Req.din, BitVec.extractLsb'_toNat, Nat.shiftRight_eq_div_pow]
  omega

end Sys2Proof
end

