-- ==== Sys2Proof/Laws/State.lean ====
section
/-! SUPPORT. One lemma per field of the state per update, so that no proof unfolds a record update. -/

namespace Sys2Proof.Machine

/-! ### `present`, `onBuffer`, `withFetchWord` -/

@[simp] theorem present_inp (s : State) (t : Inputs) (rest : List Inputs) : (s.present t rest).inp = t := rfl
@[simp] theorem present_out (s : State) (t : Inputs) (rest : List Inputs) : (s.present t rest).out = s.out := rfl
@[simp] theorem present_pending (s : State) (t : Inputs) (rest : List Inputs) : (s.present t rest).pending = rest := rfl
@[simp] theorem present_draws (s : State) (t : Inputs) (rest : List Inputs) : (s.present t rest).draws = s.draws := rfl

@[simp] theorem onBuffer_ibuf (s : State) (b : List Byte) : (s.onBuffer b).inp.ibuf = b := rfl
@[simp] theorem onBuffer_req (s : State) (b : List Byte) : (s.onBuffer b).inp.req = s.inp.req := rfl
@[simp] theorem onBuffer_out (s : State) (b : List Byte) : (s.onBuffer b).out = s.out := rfl
@[simp] theorem onBuffer_pending (s : State) (b : List Byte) : (s.onBuffer b).pending = s.pending := rfl
@[simp] theorem onBuffer_draws (s : State) (b : List Byte) : (s.onBuffer b).draws = s.draws := rfl

@[simp] theorem withFetchWord_inp (s : State) (nbits w : Nat) : (s.withFetchWord nbits w).inp = s.inp := rfl
@[simp] theorem withFetchWord_out (s : State) (nbits w : Nat) : (s.withFetchWord nbits w).out = s.out := rfl
@[simp] theorem withFetchWord_draws (s : State) (nbits w : Nat) : (s.withFetchWord nbits w).draws = s.draws := rfl
@[simp] theorem withFetchWord_pending (s : State) (nbits w : Nat) :
    (s.withFetchWord nbits w).pending = ⟨reqOfTableWord nbits w, s.inp.ibuf⟩ :: s.pending := rfl

/-! ### The driven ports of the four ways an operation ends -/

@[simp] theorem undriven_st (n : Nat) (st : Status) : (undriven n st).st = st := rfl

@[simp] theorem deliverBytes_st (n : Nat) (l : List Byte) : (deliverBytes n l).st = .ok := rfl
@[simp] theorem deliverBytes_olen (n : Nat) (l : List Byte) : (deliverBytes n l).olen = BitVec.ofNat 3 l.length := rfl
@[simp] theorem deliverBytes_dout (n : Nat) (l : List Byte) :
    (deliverBytes n l).dout = overwriteFront l (undriven n .ok).dout := rfl

@[simp] theorem deliverBuffer_st (n : Nat) (l : List Byte) : (deliverBuffer n l).st = .ok := rfl
@[simp] theorem deliverBuffer_obuf (n : Nat) (l : List Byte) : (deliverBuffer n l).obuf = l := rfl
@[simp] theorem deliverBuffer_olenS (n : Nat) (l : List Byte) : (deliverBuffer n l).olenS = l.length := rfl

@[simp] theorem deliverNoBuffer_st (n : Nat) : (deliverNoBuffer n).st = .ok := rfl
@[simp] theorem deliverNoBuffer_olenS (n : Nat) : (deliverNoBuffer n).olenS = 0 := rfl

@[simp] theorem raise_st (f : Format) (e : Error) (n : Nat) : (raise f e n).st = e.status := by
  cases f <;> cases e <;> rfl
@[simp] theorem raise_chunk_olen (e : Error) (n : Nat) : (raise .chunk e n).olen = 0 := by
  cases e <;> rfl
@[simp] theorem raise_chunk_epos_byte (i : Nat) (c : Byte) (n : Nat) :
    (raise .chunk (.invalidByte i c) n).epos = BitVec.ofNat 3 i := rfl
@[simp] theorem raise_chunk_ebyte (i : Nat) (c : Byte) (n : Nat) :
    (raise .chunk (.invalidByte i c) n).ebyte = c := rfl
@[simp] theorem raise_chunk_epos_chunk (p n : Nat) :
    (raise .chunk (.invalidChunk p) n).epos = BitVec.ofNat 3 p := rfl
@[simp] theorem raise_sequencer_olenS (e : Error) (n : Nat) : (raise .sequencer e n).olenS = 0 := by
  cases e <;> rfl
@[simp] theorem raise_sequencer_eposAbs_byte (i : Nat) (c : Byte) (n : Nat) :
    (raise .sequencer (.invalidByte i c) n).eposAbs = i := rfl
@[simp] theorem raise_sequencer_ebyte (i : Nat) (c : Byte) (n : Nat) :
    (raise .sequencer (.invalidByte i c) n).ebyte = c := rfl
@[simp] theorem raise_sequencer_eposAbs_chunk (p n : Nat) :
    (raise .sequencer (.invalidChunk p) n).eposAbs = p := rfl
@[simp] theorem raise_sequencer_elen (len n : Nat) : (raise .sequencer (.invalidLength len) n).elen = len := rfl

@[simp] theorem errorStatus_ne_ok (e : Error) : e.status ≠ .ok := by cases e <;> simp [Error.status]

end Sys2Proof.Machine
end

