-- ==== Sys2Proof/Laws/Ops.lean ====
section
/-! SUPPORT. What each shared operation can do, said once: how a transaction ends, what an error delivers, what a walk
over a group and a loop over a buffer answer. -/

namespace Sys2Proof.Machine

/-! ### The end of a transaction -/

/-- Ending a transaction is always a next state, with the given ports and everything else but the draw counter as before. -/
theorem complete_next {s t : State} {o : Outputs} :
    complete s o = .next t ↔ t = { s with out := o, draws := s.draws + 1 } := by
  simp [complete, eq_comm]

theorem completeChunk_next {s t : State} {res : Except Error (List Byte)} :
    completeChunk s res = .next t ↔
      (∃ l, res = .ok l ∧ t = { s with out := deliverBytes s.draws l, draws := s.draws + 1 }) ∨
      (∃ e, res = .error e ∧ t = { s with out := raise .chunk e s.draws, draws := s.draws + 1 }) := by
  cases res <;> simp [completeChunk, complete_next]

theorem completeBuffer_next {s t : State} {res : Except Error (List Byte)} :
    completeBuffer s res = .next t ↔
      (∃ l, res = .ok l ∧ t = { s with out := deliverBuffer s.draws l, draws := s.draws + 1 }) ∨
      (∃ e, res = .error e ∧ t = { s with out := raise .sequencer e s.draws, draws := s.draws + 1 }) := by
  cases res <;> simp [completeBuffer, complete_next]

/-- An operation whose meaning is `complete s o` completes with the ports `o`. -/
theorem completes_of_eq {i : Instr} {s : State} {o : Outputs} {p : Outputs → Prop} (h : exec i s = complete s o)
    (hp : p o) : Completes i s p :=
  ⟨_, h, hp, rfl, rfl⟩

theorem Completes.imp {i : Instr} {s : State} {p q : Outputs → Prop} (h : Completes i s p) (hpq : ∀ o, p o → q o) :
    Completes i s q := by
  obtain ⟨t, ht, hp, hr⟩ := h
  exact ⟨t, ht, hpq _ hp, hr⟩

/-! ### Byte sequences -/

@[simp] theorem bytes4_length (c : Byte4) : (bytes4 c).length = 4 := rfl
@[simp] theorem bytes5_length (g : Byte5) : (bytes5 g).length = 5 := rfl
@[simp] theorem toByte4_bytes4 (c : Byte4) : toByte4 (bytes4 c) = c := by cases c; rfl
@[simp] theorem toByte5_bytes5 (g : Byte5) : toByte5 (bytes5 g) = g := by cases g; rfl

theorem bytes4_toByte4 {l : List Byte} (h : l.length = 4) : bytes4 (toByte4 l) = l := by
  match l, h with
  | [_, _, _, _], _ => rfl

theorem bytes5_toByte5 {l : List Byte} (h : l.length = 5) : bytes5 (toByte5 l) = l := by
  match l, h with
  | [_, _, _, _, _], _ => rfl

theorem bytes4_injective {c c' : Byte4} (h : bytes4 c = bytes4 c') : c = c' := by
  rw [← toByte4_bytes4 c, h, toByte4_bytes4]

theorem bytes5_injective {g g' : Byte5} (h : bytes5 g = bytes5 g') : g = g' := by
  rw [← toByte5_bytes5 g, h, toByte5_bytes5]

@[simp] theorem overwriteFront_nil (p : Byte5) : overwriteFront [] p = p := by cases p; rfl
@[simp] theorem overwriteFront_bytes5 (g p : Byte5) : overwriteFront (bytes5 g) p = g := by cases g; rfl

/-- Driving the first bytes of a 5-byte port leaves the others as they were. -/
theorem bytes5_overwriteFront {l : List Byte} (h : l.length ≤ 5) (p : Byte5) :
    bytes5 (overwriteFront l p) = l ++ (bytes5 p).drop l.length := by
  match l, h with
  | [], _ => rfl
  | [_], _ => rfl
  | [_, _], _ => rfl
  | [_, _, _], _ => rfl
  | [_, _, _, _], _ => rfl
  | [_, _, _, _, _], _ => rfl

/-- The result bytes at the ports of a successful chunk operation are the ones delivered. -/
theorem bytesAt_deliverBytes {l : List Byte} (h : l.length ≤ 5) (n : Nat) :
    bytesAt .chunk (deliverBytes n l) = l := by
  have hl : (BitVec.ofNat 3 l.length).toNat = l.length := by simp; omega
  simp [bytesAt, bytes5_overwriteFront h, hl]

@[simp] theorem bytesAt_deliverBuffer (n : Nat) (l : List Byte) : bytesAt .sequencer (deliverBuffer n l) = l := by
  simp [bytesAt]

@[simp] theorem bytesAt_raise (f : Format) (e : Error) (n : Nat) : bytesAt f (raise f e n) = [] := by
  cases f <;> simp [bytesAt]

theorem memRead_length {buf : List Byte} {off n : Nat} (h : off + n ≤ buf.length) : (memRead buf off n).length = n := by
  simp [memRead]; omega

theorem bytes4_chunkAt {buf : List Byte} {off : Nat} (h : off + 4 ≤ buf.length) :
    bytes4 (chunkAt buf off) = memRead buf off 4 :=
  bytes4_toByte4 (memRead_length h)

theorem bytes5_groupAt {buf : List Byte} {off : Nat} (h : off + 5 ≤ buf.length) :
    bytes5 (groupAt buf off) = memRead buf off 5 :=
  bytes5_toByte5 (memRead_length h)

/-! ### The walk over a group -/

/-- What a walk answers: the first invalid byte and its offset, or, when there is none, the accumulated digits. -/
theorem walk_cases (i acc : Nat) (l : List Byte) :
    (∃ k c, walk i acc l = .badByte (i + k) c ∧ l[k]? = some c ∧ inv c = none ∧
      ∀ j b, j < k → l[j]? = some b → inv b ≠ none) ∨
    (∃ ds : List Nat, l.map inv = ds.map some ∧
      walk i acc l = .value (ds.foldl (fun a d => a * RADIX + d) acc)) := by
  induction l generalizing i acc with
  | nil => exact .inr ⟨[], rfl, rfl⟩
  | cons c cs ih =>
    cases h : inv c with
    | none => exact .inl ⟨0, c, by simp [walk, h], rfl, h, by simp⟩
    | some d =>
      obtain ⟨k, b, hw, hk, hb, hlt⟩ | ⟨ds, hds, hw⟩ := ih (i + 1) (acc * RADIX + d)
      · refine .inl ⟨k + 1, b, by simp [walk, h, hw]; omega, by simpa using hk, hb, ?_⟩
        rintro (_ | j) b' hj hb'
        · simp only [List.getElem?_cons_zero, Option.some.injEq] at hb'
          simp [← hb', h]
        · exact hlt j b' (by omega) (by simpa using hb')
      · exact .inr ⟨d :: ds, by simp [h, hds], by simp [walk, h, hw]⟩

/-- What the ordinary chunk decoder answers on a group, up to the value. -/
theorem chunkValue_cases (g : Byte5) :
    (∃ i c, FirstInvalid g i c ∧ i ≤ 4 ∧ chunkValue g = .error (.invalidByte i c)) ∨
    (∃ d0 d1 d2 d3 d4, HasDigits g d0 d1 d2 d3 d4 ∧
      ((MAX32 < digitSum d0 d1 d2 d3 d4 ∧ chunkValue g = .error (.invalidChunk 0)) ∨
        (digitSum d0 d1 d2 d3 d4 ≤ MAX32 ∧ chunkValue g = .ok (digitSum d0 d1 d2 d3 d4)))) := by
  obtain ⟨k, c, hw, hk, hc, hlt⟩ | ⟨ds, hds, hw⟩ := walk_cases 0 0 (bytes5 g)
  · have h4 : k < (bytes5 g).length := (List.getElem?_eq_some_iff.mp hk).1
    have h5 := bytes5_length g
    exact .inl ⟨k, c, ⟨hk, hc, hlt⟩, by omega, by simp [chunkValue, hw]⟩
  · have hlen : ds.length = 5 := by simpa using (congrArg List.length hds).symm
    match ds, hlen, hds with
    | [d0, d1, d2, d3, d4], _, hds =>
      simp only [bytes5, List.map_cons, List.map_nil, List.cons.injEq, and_true] at hds
      have hv : walk 0 0 (bytes5 g) = .value (digitSum d0 d1 d2 d3 d4) := by
        rw [hw]; simp only [digitSum, RADIX, List.foldl_cons, List.foldl_nil]; congr 1; omega
      refine .inr ⟨d0, d1, d2, d3, d4, hds, ?_⟩
      by_cases hm : MAX32 < digitSum d0 d1 d2 d3 d4
      · exact .inl ⟨hm, by simp [chunkValue, hv, hm]⟩
      · exact .inr ⟨by omega, by simp [chunkValue, hv, hm]⟩

/-! ### The loops over a buffer -/

theorem encodeChunks_length (buf : List Byte) (k ci : Nat) : (encodeChunks buf k ci).length = 5 * k := by
  induction k generalizing ci with
  | zero => rfl
  | succ k ih => simp [encodeChunks, ih]; omega

/-- What a decoding loop answers: the first failing group's error, rebased, or the groups' bytes one after another. -/
theorem decodeGroups_cases (buf : List Byte) (k ci : Nat) :
    (∃ j e, j < k ∧ decodeChunk (groupAt buf (5 * (ci + j))) = .error e ∧
      (∀ i, i < j → ∃ l, decodeChunk (groupAt buf (5 * (ci + i))) = .ok l) ∧
      decodeGroups buf k ci = .error (e.rebase (5 * (ci + j)))) ∨
    (∃ ls : List (List Byte), ls.length = k ∧
      (∀ j, j < k → ∃ l, ls[j]? = some l ∧ decodeChunk (groupAt buf (5 * (ci + j))) = .ok l) ∧
      decodeGroups buf k ci = .ok ls.flatten) := by
  induction k generalizing ci with
  | zero => exact .inr ⟨[], rfl, by simp, rfl⟩
  | succ k ih =>
    cases h : decodeChunk (groupAt buf (5 * ci)) with
    | error e => exact .inl ⟨0, e, by omega, h, by simp, by simp [decodeGroups, h]⟩
    | ok l =>
      obtain ⟨j, e, hj, he, hlt, hd⟩ | ⟨ls, hlen, hls, hd⟩ := ih (ci + 1)
      · refine .inl ⟨j + 1, e, by omega, by rw [← he]; congr 3; omega, ?_, ?_⟩
        · rintro (_ | i) hi
          · exact ⟨l, h⟩
          · obtain ⟨l', hl'⟩ := hlt i (by omega)
            exact ⟨l', by rw [← hl']; congr 3; omega⟩
        · simp only [decodeGroups, h, hd]; congr 2; omega
      · refine .inr ⟨l :: ls, by simp [hlen], ?_, by simp [decodeGroups, h, hd]⟩
        rintro (_ | j) hj
        · exact ⟨l, rfl, h⟩
        · obtain ⟨l', hl', hd'⟩ := hls j (by omega)
          exact ⟨l', by simpa using hl', by rw [← hd']; congr 3; omega⟩

end Sys2Proof.Machine
end

