-- ==== Sys2Proof/Laws/PerInstr.lean ====
section
/-! SUPPORT. Statements for all operations, made per constructor. -/

namespace Sys2Proof.Laws.RowOfTable

/-- The word of an operation carries the select code of its row of rule R59 in the `OP` field. -/
def Statement (i : Instr) : Prop := Req.op (encode i) = i.opcode

theorem enc (chunk : Byte4) : Statement (.enc chunk) := op_packReq _ _ _

theorem dec (group : Byte5) : Statement (.dec group) := op_packReq _ _ _

theorem val (group : Byte5) : Statement (.val group) := op_packReq _ _ _

theorem decu (group : Byte5) : Statement (.decu group) := op_packReq _ _ _

theorem tdet (group : Byte5) : Statement (.tdet group) := op_packReq _ _ _

theorem tenc (tail : List Byte) : Statement (.tenc tail) := by
  match tail with
  | [] => exact op_packReq _ _ _
  | [_] => exact op_packReq _ _ _
  | [_, _] => exact op_packReq _ _ _
  | [_, _, _] => exact op_packReq _ _ _
  | _ :: _ :: _ :: _ :: _ => exact op_packReq _ _ _

theorem tdec (group : Byte5) : Statement (.tdec group) := op_packReq _ _ _

theorem encs : Statement .encs := op_packReq _ _ _

theorem decs : Statement .decs := op_packReq _ _ _

theorem encp : Statement .encp := op_packReq _ _ _

theorem decp : Statement .decp := op_packReq _ _ _

theorem vals : Statement .vals := op_packReq _ _ _

theorem decus : Statement .decus := op_packReq _ _ _

end Sys2Proof.Laws.RowOfTable
end

