-- ==== Sys2Proof/Tests/Slice0.lean ====
section
/-! SUPPORT. Small tests of one step each, whose expected results are the vectors of spec/95_test_vectors.md, and for
every statement with hypotheses a witness: a concrete state and operands that meet them. -/

namespace Sys2Proof.Tests

open Sys2Proof Sys2Proof.Machine

set_option maxRecDepth 4000

/-! ### Helpers -/

/-- Reset, with the given bytes on `IBUF`. -/
def withBuf (buf : List Byte) : State := State.reset.onBuffer buf

/-- One step from `s` with the request word `w` issued. -/
def runWord (buf : List Byte) (w : Nat) : Host.Outcome State Fault Refusal := step ((withBuf buf).withFetchWord 48 w)

/-- The outcome is a next state whose output ports pass the test. -/
def ends (o : Host.Outcome State Fault Refusal) (p : Outputs → Bool) : Bool :=
  match o with
  | .next t => p t.out
  | .fault _ => false
  | .refused _ => false

/-- The outcome is this refusal. -/
def refusedWith (o : Host.Outcome State Fault Refusal) (r : Refusal) : Bool :=
  match o with
  | .next _ => false
  | .fault _ => false
  | .refused r' => decide (r' = r)

/-- A chunk operation succeeds with these bytes. -/
def gives (l : List Byte) (o : Outputs) : Bool :=
  decide (o.st = .ok) && decide (o.olen.toNat = l.length) && decide ((bytes5 o.dout).take l.length = l)

/-- A sequencer operation succeeds with these bytes. -/
def givesBuf (l : List Byte) (o : Outputs) : Bool :=
  decide (o.st = .ok) && decide (o.olenS = l.length) && decide (o.obuf = l)

/-- A chunk operation fails with this error. -/
def failsC (e : Error) (o : Outputs) : Bool := decide (o.olen = 0) && decide (errorAt .chunk o = some e)

/-- A sequencer operation fails with this error. -/
def failsS (e : Error) (o : Outputs) : Bool := decide (o.olenS = 0) && decide (errorAt .sequencer o = some e)

/-! ### Well-formedness (R62) -/

theorem test_wf_refuses_empty_tail : tailNotEmpty [] = false ∧ Instr.wellFormed (.tenc []) = false := by decide

theorem test_wf_refuses_whole_chunk_as_tail :
    tailBelowChunk [1, 2, 3, 4] = false ∧ Instr.wellFormed (.tenc [1, 2, 3, 4]) = false := by decide

theorem test_wf_accepts_tails : Instr.wellFormed (.tenc [1]) = true ∧
    Instr.wellFormed (.tenc [1, 2, 3]) = true := by decide

theorem test_exec_refuses_ill_formed_tail :
    refusedWith (exec (.tenc []) State.reset) (.illegalTailLength 0) = true := by decide

/-! ### Decoding: words written out from the fields of R60, `OP` `TLEN` `DIN[0]` ... `DIN[4]` -/

/-- V-ENC-25. -/
theorem test_decode_enc :
    decode 0b0000_111_10000110_01001111_11010010_01101111_11111111#47
      = .ok (.enc ⟨0x86, 0x4F, 0xD2, 0x6F⟩) := by decide

/-- V-DEC-4. -/
theorem test_decode_dec :
    decode 0b0001_000_01001000_01100101_01101100_01101100_01101111#47
      = .ok (.dec ⟨0x48, 0x65, 0x6C, 0x6C, 0x6F⟩) := by decide

/-- section 2.2. -/
theorem test_decode_val :
    decode 0b0010_000_00100101_01101110_01010011_01100011_00110001#47
      = .ok (.val ⟨0x25, 0x6E, 0x53, 0x63, 0x31⟩) := by decide

/-- section 2.2. -/
theorem test_decode_decu :
    decode 0b0011_000_01010111_01101111_01110010_01101100_01100100#47
      = .ok (.decu ⟨0x57, 0x6F, 0x72, 0x6C, 0x64⟩) := by decide

/-- V-TDET-11. -/
theorem test_decode_tdet :
    decode 0b0100_000_00100011_00000000_11111111_01011111_00100000#47
      = .ok (.tdet ⟨0x23, 0x00, 0xFF, 0x5F, 0x20⟩) := by decide

/-- V-TENC-17. -/
theorem test_decode_tenc :
    decode 0b0101_011_10000110_01001111_11010010_00000000_00000000#47
      = .ok (.tenc [0x86, 0x4F, 0xD2]) := by decide

/-- V-TDEC-13. -/
theorem test_decode_tdec :
    decode 0b0110_000_00100011_00100011_00110100_00111010_01001000#47
      = .ok (.tdec ⟨0x23, 0x23, 0x34, 0x3A, 0x48⟩) := by decide

/-- section 2.6. -/
theorem test_decode_encs :
    decode 0b1000_000_00000000_00000000_00000000_00000000_00000000#47
      = .ok (.encs) := by decide

/-- section 2.6. -/
theorem test_decode_decs :
    decode 0b1001_000_00000000_00000000_00000000_00000000_00000000#47
      = .ok (.decs) := by decide

/-- section 2.6. -/
theorem test_decode_encp :
    decode 0b1010_000_00000000_00000000_00000000_00000000_00000000#47
      = .ok (.encp) := by decide

/-- section 2.6. -/
theorem test_decode_decp :
    decode 0b1011_000_00000000_00000000_00000000_00000000_00000000#47
      = .ok (.decp) := by decide

/-- section 2.6. -/
theorem test_decode_vals :
    decode 0b1100_000_00000000_00000000_00000000_00000000_00000000#47
      = .ok (.vals) := by decide

/-- section 2.6. -/
theorem test_decode_decus :
    decode 0b1101_000_00000000_00000000_00000000_00000000_00000000#47
      = .ok (.decus) := by decide

/-- R62: the three reserved select codes. -/
theorem test_decode_reserved :
    decode 0b0111_000_00000000_00000000_00000000_00000000_00000000#47 = .error (.reservedOp 7) ∧
    decode 0b1110_000_00000000_00000000_00000000_00000000_00000000#47 = .error (.reservedOp 14) ∧
    decode 0b1111_000_00000000_00000000_00000000_00000000_00000000#47 = .error (.reservedOp 15) := by decide

/-- R62: `TENC` with `TLEN` 0 and 4. -/
theorem test_decode_tail_length :
    decode 0b0101_000_00000000_00000000_00000000_00000000_00000000#47 = .error (.illegalTailLength 0) ∧
    decode 0b0101_100_00000000_00000000_00000000_00000000_00000000#47 = .error (.illegalTailLength 4) := by decide

/-- The table's numbering: a word of 48 bits whose last bit no wire carries. -/
theorem test_decodeTableWord :
    decodeTableWord 48 0x0848656C6C6F = some (.dec ⟨0x48, 0x65, 0x6C, 0x6C, 0x6F⟩) := by decide

theorem test_encode_tenc : encode (.tenc [0xB5, 0x59]) = 0x2AB559000000#47 := by decide

/-! ### One step each -/

/-- V-ENC-22. -/
theorem test_enc_digits :
    ends (runWord [] 0x00DECAFBAD00)
      (gives [0x3F, 0x50, 0x43, 0x2E, 0x24]) = true := by decide

/-- V-ENC-24. -/
theorem test_enc_largest :
    ends (runWord [] 0x00FFFFFFFF00)
      (gives [0x25, 0x6E, 0x53, 0x63, 0x30]) = true := by decide

/-- V-DEC-17. -/
theorem test_dec_leading_digit_81 :
    ends (runWord [] 0x084023232323)
      (gives [0xFF, 0x22, 0x80, 0xB1]) = true := by decide

/-- V-DEC-35. -/
theorem test_dec_byte_before_value :
    ends (runWord [] 0x08256E53635F)
      (failsC (.invalidByte 4 0x5F)) = true := by decide

/-- Section 2.2. -/
theorem test_val_too_large :
    ends (runWord [] 0x10256E536331)
      (failsC (.invalidChunk 0)) = true := by decide

/-- Section 2.2. -/
theorem test_val_fine :
    ends (runWord [] 0x10256E536330)
      (gives []) = true := by decide

/-- Section 2.2. -/
theorem test_decu_largest :
    ends (runWord [] 0x18256E536330)
      (gives [0xFF, 0xFF, 0xFF, 0xFF]) = true := by decide

/-- Section 2.2: `ST` is `OK`, the bytes are not compared. -/
theorem test_decu_unchecked :
    ends (runWord [] 0x18256E536331)
      (fun o => decide (o.st = .ok) && decide (o.olen = 4)) = true := by decide

/-- V-TDET-10. -/
theorem test_tdet_run_at_front :
    ends (runWord [] 0x202323302330)
      (fun o => gives [] o && o.istail && decide (o.diff = 2)) = true := by decide

/-- V-TDET-2. -/
theorem test_tdet_none :
    ends (runWord [] 0x203023232323)
      (fun o => gives [] o && !o.istail && decide (o.diff = 0)) = true := by decide

/-- V-TENC-17. -/
theorem test_tenc_three :
    ends (runWord [] 0x2B864FD20000)
      (gives [0x23, 0x65, 0x73, 0x70, 0x24]) = true := by decide

/-- V-TENC-9. -/
theorem test_tenc_two :
    ends (runWord [] 0x2A0100000000)
      (gives [0x23, 0x23, 0x30, 0x33, 0x31]) = true := by decide

/-- V-TDEC-24. -/
theorem test_tdec_later_sentinel_is_data :
    ends (runWord [] 0x302330233030)
      (fun o => gives [0x09, 0x42, 0xB4] o && decide (o.diff = 1)) = true := by decide

/-- V-TDEC-34. -/
theorem test_tdec_byte_before_value :
    ends (runWord [] 0x30232339255F)
      (fun o => failsC (.invalidByte 4 0x5F) o && decide (o.diff = 2)) = true := by decide

/-- V-ENCS-5. -/
theorem test_encs_three_chunks :
    ends (runWord [0x86, 0x4F, 0xD2, 0x6F, 0xB5, 0x59, 0xF7, 0x5B, 0x12, 0x34, 0x56, 0x78] 0x400000000000)
      (givesBuf [0x48, 0x65, 0x6C, 0x6C, 0x6F, 0x57, 0x6F, 0x72, 0x6C, 0x64, 0x35, 0x26, 0x72, 0x54, 0x6C]) = true := by decide

/-- V-ENCS-9. -/
theorem test_encs_length :
    ends (runWord [0x86, 0x4F, 0xD2, 0x6F, 0xB5] 0x400000000000)
      (failsS (.invalidLength 5)) = true := by decide

/-- V-DECS-5. -/
theorem test_decs_three_groups :
    ends (runWord [0x48, 0x65, 0x6C, 0x6C, 0x6F, 0x57, 0x6F, 0x72, 0x6C, 0x64, 0x35, 0x26, 0x72, 0x54, 0x6C] 0x480000000000)
      (givesBuf [0x86, 0x4F, 0xD2, 0x6F, 0xB5, 0x59, 0xF7, 0x5B, 0x12, 0x34, 0x56, 0x78]) = true := by decide

/-- V-DECS-16. -/
theorem test_decs_first_group_wins :
    ends (runWord [0x25, 0x6E, 0x53, 0x63, 0x31, 0x48, 0x65, 0x20, 0x6C, 0x6F] 0x480000000000)
      (failsS (.invalidChunk 0)) = true := by decide

/-- V-ENCP-15. -/
theorem test_encp_with_tail :
    ends (runWord [0x68, 0x65, 0x6C, 0x6C, 0x6F, 0x20, 0x77, 0x6F, 0x72, 0x6C, 0x64] 0x500000000000)
      (givesBuf [0x78, 0x4B, 0x23, 0x30, 0x40, 0x7A, 0x59, 0x3C, 0x6D, 0x78, 0x23, 0x63, 0x68, 0x29, 0x5E]) = true := by decide

/-- V-ENCP-13. -/
theorem test_encp_one_byte_tail :
    ends (runWord [0xFF, 0xFF, 0xFF, 0xFF, 0xFF] 0x500000000000)
      (givesBuf [0x25, 0x6E, 0x53, 0x63, 0x30, 0x23, 0x23, 0x23, 0x33, 0x30]) = true := by decide

/-- V-DECP-12. -/
theorem test_decp_sentinels_as_data :
    ends (runWord [0x48, 0x65, 0x6C, 0x6C, 0x6F, 0x30, 0x23, 0x23, 0x23, 0x23] 0x580000000000)
      (givesBuf [0x86, 0x4F, 0xD2, 0x6F, 0x03, 0x1C, 0x84, 0xB0]) = true := by decide

/-- V-DECP-25. -/
theorem test_decp_body_before_tail :
    ends (runWord [0x48, 0x65, 0x5F, 0x6C, 0x6F, 0x23, 0x23, 0x23, 0x23, 0x30] 0x580000000000)
      (failsS (.invalidByte 2 0x5F)) = true := by decide

/-- V-VALS-3. -/
theorem test_vals_position :
    ends (runWord [0x48, 0x65, 0x6C, 0x6C, 0x6F, 0x57, 0x6F, 0x00, 0x6C, 0x64] 0x600000000000)
      (failsS (.invalidByte 7 0x00)) = true := by decide

/-- V-VALS-6. -/
theorem test_vals_knows_no_tail :
    ends (runWord [0x48, 0x65, 0x6C, 0x6C, 0x6F, 0x23, 0x23, 0x34, 0x3A, 0x48] 0x600000000000)
      (failsS (.invalidChunk 5)) = true := by decide

/-- V-DECUS-1. -/
theorem test_decus_fine :
    ends (runWord [0x48, 0x65, 0x6C, 0x6C, 0x6F, 0x57, 0x6F, 0x72, 0x6C, 0x64] 0x680000000000)
      (givesBuf [0x86, 0x4F, 0xD2, 0x6F, 0xB5, 0x59, 0xF7, 0x5B]) = true := by decide

/-- V-DECUS-4. -/
theorem test_decus_unchecked :
    ends (runWord [0x48, 0x65, 0x6C, 0x6C, 0x6F, 0x57, 0x6F, 0x72, 0x6C] 0x680000000000)
      (fun o => decide (o.st = .ok)) = true := by decide

theorem test_step_refuses_reserved_request :
    refusedWith (runWord [] 0x380000000000) (.reservedOp 7) = true ∧
    refusedWith (runWord [] 0x2C0000000000) (.illegalTailLength 4) = true := by decide

/-! ### Witnesses: for every statement with hypotheses, operands and states that meet them together -/

theorem witness_TablesAreInverse :
    84 < 85 ∧ inv 0x23 = some 84 ∧ inv 0x30 = some 0 := by decide

theorem witness_AlphabetOrder :
    (9 < 10 ∧ (alpha 9).toNat = 0x39) ∧ (25 < 26 ∧ (alpha 35).toNat = 0x7A ∧ (alpha 61).toNat = 0x5A) := by decide

theorem witness_InvalidByteClasses :
    inv 0x20 = none ∧ inv 0x21 = some 68 ∧ inv 0x7D = some 80 ∧ inv 0x7E = none ∧ inv 0x7C = none := by decide

theorem witness_BytesAreBigEndian :
    4294967295 ≤ MAX32 ∧ 4 + 4 ≤ ([0x86, 0x4F, 0xD2, 0x6F, 0xB5, 0x59, 0xF7, 0x5B] : List Byte).length ∧
    5 + 5 ≤ ([0x48, 0x65, 0x6C, 0x6C, 0x6F, 0x57, 0x6F, 0x72, 0x6C, 0x64] : List Byte).length ∧ 3 < 4 ∧ 4 < 5 := by decide

theorem witness_DecodeOfEncode :
    Instr.wellFormed (.tenc [0x86]) = true ∧ Instr.wellFormed (.tenc [0x86, 0x4F, 0xD2]) = true ∧
    Instr.wellFormed .decp = true := by decide

theorem witness_DecodedRequestMatchesItsRow :
    decode 0x07864FD26FFF#47 = .ok (.enc ⟨0x86, 0x4F, 0xD2, 0x6F⟩) := by decide

theorem witness_IgnoredFieldsHaveNoEffect_enc :
    Req.op 0x07864FD26FFF#47 = Req.op 0x00864FD26F00#47 ∧ Req.op 0x07864FD26FFF#47 = 0x0 ∧
    (bytes5 (Req.din 0x07864FD26FFF#47)).take 4 = (bytes5 (Req.din 0x00864FD26F00#47)).take 4 := by decide

theorem witness_IgnoredFieldsHaveNoEffect_tenc :
    Req.op 0x298600000000#47 = Req.op 0x2986FFFFFFFF#47 ∧ Req.op 0x298600000000#47 = 0x5 ∧
    Req.tlen 0x298600000000#47 = Req.tlen 0x2986FFFFFFFF#47 ∧
    (bytes5 (Req.din 0x298600000000#47)).take (Req.tlen 0x298600000000#47).toNat
      = (bytes5 (Req.din 0x2986FFFFFFFF#47)).take (Req.tlen 0x298600000000#47).toNat := by decide

theorem witness_IgnoredFieldsHaveNoEffect_group :
    Req.op 0x0848656C6C6F#47 = Req.op 0x0F48656C6C6F#47 ∧ (Req.op 0x0848656C6C6F#47).toNat < 8 ∧
    Req.op 0x0848656C6C6F#47 ≠ 0x5 ∧ Req.din 0x0848656C6C6F#47 = Req.din 0x0F48656C6C6F#47 := by decide

theorem witness_IgnoredFieldsHaveNoEffect_sequencer :
    Req.op 0x400000000000#47 = Req.op 0x47FFFFFFFFFF#47 ∧ 8 ≤ (Req.op 0x400000000000#47).toNat := by decide

theorem witness_StepRunsTheDecodedRequest :
    ∃ (s : State) (t : Inputs) (rest : List Inputs) (i : Instr), s.pending = t :: rest ∧ decode t.req = .ok i :=
  ⟨{ State.reset with pending := [⟨0x0848656C6C6F#47, []⟩] }, _, _, .dec ⟨0x48, 0x65, 0x6C, 0x6C, 0x6F⟩, rfl, by decide⟩

theorem witness_StepRunsTheDecodedRequest_idle :
    ∃ s : State, s.pending = [] :=
  ⟨State.reset, rfl⟩

theorem witness_OnlyReservedRequestsAreRefused :
    ∃ (s : State) (t : Inputs) (rest : List Inputs), s.pending = t :: rest ∧ Req.op t.req ∈ [0x7, 0xE, 0xF] :=
  ⟨{ State.reset with pending := [⟨0x700000000000#47, []⟩] }, _, _, rfl, by decide⟩

theorem witness_OnlyReservedRequestsAreRefused_tail :
    ∃ (s : State) (t : Inputs) (rest : List Inputs), s.pending = t :: rest ∧ Req.op t.req = 0x5 ∧
      (Req.tlen t.req).toNat ∉ [1, 2, 3] :=
  ⟨{ State.reset with pending := [⟨0x2C0000000000#47, []⟩] }, _, _, rfl, by decide⟩

theorem witness_OnlyReservedRequestsAreRefused_legal :
    ∃ (s : State) (t : Inputs) (rest : List Inputs), s.pending = t :: rest ∧ Req.op t.req ∉ [0x7, 0xE, 0xF] ∧
      (Req.op t.req = 0x5 → (Req.tlen t.req).toNat ∈ [1, 2, 3]) :=
  ⟨{ State.reset with pending := [⟨0x2B864FD20000#47, []⟩] }, _, _, rfl, by decide⟩

theorem witness_EveryOperationCompletes :
    ∃ i : Instr, i.wellFormed = true :=
  ⟨.tenc [0x86, 0x4F], by decide⟩

theorem witness_TencOfIllegalLengthIsRefused :
    ¬ IsTail [] ∧ ¬ IsTail [1, 2, 3, 4] :=
  by simp [IsTail]

theorem witness_EncIsTotalAndInjective :
    ∃ (c c' : Byte4) (s s' t t' : State), exec (.enc c) s = .next t ∧ exec (.enc c') s' = .next t' ∧
      t.out.dout = t'.out.dout :=
  ⟨⟨0x86, 0x4F, 0xD2, 0x6F⟩, ⟨0x86, 0x4F, 0xD2, 0x6F⟩, State.reset, withBuf [1], _, _, rfl, rfl, by decide⟩

theorem witness_EncKeepsOrder :
    ∃ (c c' : Byte4) (s s' t t' : State), be32 c < be32 c' ∧ exec (.enc c) s = .next t ∧
      exec (.enc c') s' = .next t' :=
  ⟨⟨0xFF, 0xFF, 0xFF, 0xFE⟩, ⟨0xFF, 0xFF, 0xFF, 0xFF⟩, State.reset, State.reset, _, _, by decide, rfl, rfl⟩

theorem witness_DecChecksAndDecodes_byte :
    FirstInvalid ⟨0x7E, 0x30, 0x30, 0x30, 0x30⟩ 0 0x7E ∧ FirstInvalid ⟨0x25, 0x6E, 0x53, 0x63, 0x5F⟩ 4 0x5F := by
  refine ⟨⟨rfl, rfl, by omega⟩, rfl, rfl, ?_⟩
  intro j b hj hb
  have : j = 0 ∨ j = 1 ∨ j = 2 ∨ j = 3 := by omega
  rcases this with rfl | rfl | rfl | rfl <;> cases hb <;> decide

theorem witness_DecChecksAndDecodes_large :
    HasDigits ⟨0x25, 0x6E, 0x53, 0x63, 0x31⟩ 82 23 54 12 1 ∧ 4294967295 < digitSum 82 23 54 12 1 :=
  by unfold HasDigits; decide

theorem witness_DecChecksAndDecodes_fits :
    HasDigits ⟨0x25, 0x6E, 0x53, 0x63, 0x30⟩ 82 23 54 12 0 ∧ digitSum 82 23 54 12 0 ≤ 4294967295 :=
  by unfold HasDigits; decide

theorem witness_DecRejectsDigitsAboveTheLimit :
    (HasDigits ⟨0x24, 0x30, 0x30, 0x30, 0x30⟩ 83 0 0 0 0 ∧ 83 ≤ 83) ∧
      (HasDigits ⟨0x40, 0x23, 0x23, 0x23, 0x23⟩ 81 84 84 84 84 ∧ 81 ≤ 81) ∧
    HasDigits ⟨0x25, 0x6E, 0x53, 0x63, 0x30⟩ 82 23 54 12 0 :=
  by unfold HasDigits; decide

theorem witness_ChunkRoundTrip :
    (∃ (c : Byte4) (s t : State), exec (.enc c) s = .next t) ∧
    ∃ (g : Byte5) (s t : State), exec (.dec g) s = .next t ∧ t.out.st = .ok :=
  ⟨⟨⟨0x86, 0x4F, 0xD2, 0x6F⟩, State.reset, _, rfl⟩, ⟨0x48, 0x65, 0x6C, 0x6C, 0x6F⟩, State.reset, _, rfl, by decide⟩

theorem witness_ValAgreesWithDec :
    ∃ (g : Byte5) (s s' t t' : State), exec (.val g) s = .next t ∧ exec (.dec g) s' = .next t' :=
  ⟨⟨0x25, 0x6E, 0x53, 0x63, 0x5F⟩, State.reset, State.reset, _, _, rfl, rfl⟩

theorem witness_DecuDecodesValidatedGroups :
    ∃ (g : Byte5) (s' v s'' u : State), exec (.val g) s' = .next v ∧ v.out.st = .ok ∧ exec (.dec g) s'' = .next u :=
  ⟨⟨0x25, 0x6E, 0x53, 0x63, 0x30⟩, State.reset, _, State.reset, _, rfl, by decide, rfl⟩

theorem witness_TdetCountsLeadingSentinels :
    StartsWithSentinels ⟨0x30, 0x23, 0x23, 0x23, 0x23⟩ 0 ∧ StartsWithSentinels ⟨0x23, 0x23, 0x30, 0x23, 0x30⟩ 2 ∧
      StartsWithSentinels ⟨0x23, 0x23, 0x23, 0x23, 0x23⟩ 5 := by
  refine ⟨⟨by omega, ?_, by decide⟩, ⟨by omega, ?_, by decide⟩, by omega, ?_, by decide⟩ <;> decide

theorem witness_TencDeliversTailGroup :
    (IsTail [0x86] ∧ (bytes5 ⟨0x86, 0xFF, 0xFF, 0xFF, 0xFF⟩).take 1 = [0x86]) ∧
    (IsTail [0x86, 0x4F, 0xD2] ∧ (bytes5 ⟨0x86, 0x4F, 0xD2, 0xFF, 0xFF⟩).take 3 = [0x86, 0x4F, 0xD2]) :=
  by simp [IsTail, bytes5]

theorem witness_TencOverwritesOnlyZeroDigits :
    ∃ (l : List Byte) (p : Byte4) (s t u : State), IsTail l ∧ bytes4 p = List.replicate (4 - l.length) 0 ++ l ∧
      exec (.enc p) s = .next t ∧ exec (.tenc l) s = .next u :=
  ⟨[0xB5, 0x59], ⟨0x00, 0x00, 0xB5, 0x59⟩, State.reset, _, _, by simp [IsTail], by decide, rfl, rfl⟩

theorem witness_TdetIsExactOnTencGroups :
    ∃ (l : List Byte) (s t : State), IsTail l ∧ exec (.tenc l) s = .next t :=
  ⟨[0x86, 0x4F, 0xD2], State.reset, _, by simp [IsTail], rfl⟩

theorem witness_TdecChecksAndDecodes_count :
    StartsWithSentinels ⟨0x48, 0x65, 0x6C, 0x6C, 0x6F⟩ 0 ∧ StartsWithSentinels ⟨0x23, 0x23, 0x23, 0x23, 0x30⟩ 4 ∧
      StartsWithSentinels ⟨0x23, 0x23, 0x23, 0x23, 0x23⟩ 5 := by
  refine ⟨⟨by omega, ?_, by decide⟩, ⟨by omega, ?_, by decide⟩, by omega, ?_, by decide⟩ <;> decide

theorem witness_TdecChecksAndDecodes_byte :
    StartsWithSentinels ⟨0x23, 0x23, 0x39, 0x25, 0x5F⟩ 2 ∧ FirstInvalid ⟨0x23, 0x23, 0x39, 0x25, 0x5F⟩ 4 0x5F := by
  refine ⟨⟨by omega, by decide, by decide⟩, rfl, rfl, ?_⟩
  intro j b hj hb
  have : j = 0 ∨ j = 1 ∨ j = 2 ∨ j = 3 := by omega
  rcases this with rfl | rfl | rfl | rfl <;> cases hb <;> decide

theorem witness_TdecChecksAndDecodes_large :
    (StartsWithSentinels ⟨0x23, 0x23, 0x23, 0x33, 0x31⟩ 3 ∧ HasDigits ⟨0x23, 0x23, 0x23, 0x33, 0x31⟩ 84 84 84 3 1 ∧
      256 ^ (4 - 3) - 1 < digitSum 0 0 0 3 1) ∧
    (StartsWithSentinels ⟨0x23, 0x72, 0x72, 0x39, 0x31⟩ 1 ∧ HasDigits ⟨0x23, 0x72, 0x72, 0x39, 0x31⟩ 84 27 27 9 1 ∧
      256 ^ (4 - 1) - 1 < digitSum 0 27 27 9 1) := by
  unfold HasDigits
  refine ⟨⟨⟨by omega, ?_, by decide⟩, by decide⟩, ⟨by omega, ?_, by decide⟩, by decide⟩ <;> decide

theorem witness_TdecChecksAndDecodes_fits :
    (StartsWithSentinels ⟨0x23, 0x23, 0x23, 0x33, 0x30⟩ 3 ∧ HasDigits ⟨0x23, 0x23, 0x23, 0x33, 0x30⟩ 84 84 84 3 0 ∧
      digitSum 0 0 0 3 0 ≤ 256 ^ (4 - 3) - 1) ∧
    (StartsWithSentinels ⟨0x23, 0x23, 0x39, 0x36, 0x30⟩ 2 ∧ HasDigits ⟨0x23, 0x23, 0x39, 0x36, 0x30⟩ 84 84 9 6 0 ∧
      digitSum 0 0 9 6 0 ≤ 256 ^ (4 - 2) - 1) ∧
    (StartsWithSentinels ⟨0x23, 0x72, 0x72, 0x39, 0x30⟩ 1 ∧ HasDigits ⟨0x23, 0x72, 0x72, 0x39, 0x30⟩ 84 27 27 9 0 ∧
      digitSum 0 27 27 9 0 ≤ 256 ^ (4 - 1) - 1) := by
  unfold HasDigits
  refine ⟨⟨⟨by omega, ?_, by decide⟩, by decide⟩, ⟨⟨by omega, ?_, by decide⟩, by decide⟩,
    ⟨by omega, ?_, by decide⟩, by decide⟩ <;> decide

theorem witness_TailRoundTrip :
    (∃ (l : List Byte) (s t : State), IsTail l ∧ exec (.tenc l) s = .next t) ∧
    ∃ (g : Byte5) (s t : State), exec (.tdec g) s = .next t ∧ t.out.st = .ok :=
  ⟨⟨[0x86], State.reset, _, by simp [IsTail], rfl⟩, ⟨0x23, 0x23, 0x34, 0x3A, 0x48⟩, State.reset, _, rfl, by decide⟩

theorem witness_EncsEncodesEveryChunk :
    ∃ s : State, s.inp.ibuf.length % 4 = 0 ∧ ∃ (ci : Nat) (c : Byte4) (u : State), ci < s.inp.ibuf.length / 4 ∧
      memRead s.inp.ibuf (4 * ci) 4 = bytes4 c ∧ exec (.enc c) s = .next u :=
  ⟨withBuf [0x86, 0x4F, 0xD2, 0x6F, 0xB5, 0x59, 0xF7, 0x5B], by decide, 1, ⟨0xB5, 0x59, 0xF7, 0x5B⟩, _, by decide,
    by decide, rfl⟩

theorem witness_EncsEncodesEveryChunk_length :
    ∃ s : State, s.inp.ibuf.length % 4 ≠ 0 :=
  ⟨withBuf [0x86, 0x4F, 0xD2, 0x6F, 0xB5], by decide⟩

theorem witness_DecsDecodesEveryGroup_error :
    ∃ s : State, s.inp.ibuf.length % 5 = 0 ∧ ∃ (ci : Nat) (u : State), ci < s.inp.ibuf.length / 5 ∧
      (∀ cj v, cj < ci → exec (.dec (groupAt s.inp.ibuf (5 * cj))) s = .next v → v.out.st = .ok) ∧
      exec (.dec (groupAt s.inp.ibuf (5 * ci))) s = .next u ∧ u.out.st ≠ .ok :=
  ⟨withBuf [0x48, 0x65, 0x6C, 0x6C, 0x6F, 0x23, 0x23, 0x23, 0x23, 0x23], by decide, 1, _, by decide, by
    intro cj v hj hv
    have : cj = 0 := by omega
    subst this
    cases hv; decide, rfl, by decide⟩

theorem witness_DecsDecodesEveryGroup_ok :
    ∃ s : State, s.inp.ibuf.length % 5 = 0 ∧ s.inp.ibuf.length / 5 = 2 ∧
      ∀ cj v, cj < s.inp.ibuf.length / 5 → exec (.dec (groupAt s.inp.ibuf (5 * cj))) s = .next v → v.out.st = .ok :=
  ⟨withBuf [0x48, 0x65, 0x6C, 0x6C, 0x6F, 0x57, 0x6F, 0x72, 0x6C, 0x64], by decide, by decide, by
    intro cj v hj hv
    have h2 : cj < 2 := hj
    have : cj = 0 ∨ cj = 1 := by omega
    rcases this with rfl | rfl <;> cases hv <;> decide⟩

theorem witness_DecsDecodesEveryGroup_length :
    ∃ s : State, s.inp.ibuf.length % 5 ≠ 0 :=
  ⟨withBuf [0x48, 0x65, 0x6C, 0x6C, 0x6F, 0x23], by decide⟩

theorem witness_EncpAppendsTailGroup :
    ∃ s : State, s.inp.ibuf.length % 4 ≠ 0 ∧
      ∃ u, exec (.tenc (s.inp.ibuf.drop (4 * (s.inp.ibuf.length / 4)))) s = .next u :=
  ⟨withBuf [0x86, 0x4F, 0xD2, 0x6F, 0xB5, 0x59], by decide, _, rfl⟩

theorem witness_EncpAppendsTailGroup_chunk :
    ∃ (s : State) (ci : Nat) (c : Byte4) (u : State), ci < s.inp.ibuf.length / 4 ∧
      memRead s.inp.ibuf (4 * ci) 4 = bytes4 c ∧ exec (.enc c) s = .next u :=
  ⟨withBuf [0x86, 0x4F, 0xD2, 0x6F, 0xB5, 0x59], 0, ⟨0x86, 0x4F, 0xD2, 0x6F⟩, _, by decide, by decide, rfl⟩

theorem witness_DecpDecodesBodyThenTail_empty :
    ∃ s : State, s.inp.ibuf = [] :=
  ⟨State.reset, rfl⟩

theorem witness_DecpDecodesBodyThenTail_length :
    ∃ s : State, s.inp.ibuf.length % 5 ≠ 0 :=
  ⟨withBuf [0x23, 0x23, 0x34, 0x3A], by decide⟩

theorem witness_DecpDecodesBodyThenTail_strict :
    ∃ s : State, s.inp.ibuf ≠ [] ∧ s.inp.ibuf.length % 5 = 0 ∧
      s.inp.ibuf[s.inp.ibuf.length - 5]? ≠ some SENTINEL ∧ ∃ u, exec .decs s = .next u :=
  ⟨withBuf [0x48, 0x65, 0x6C, 0x6C, 0x6F, 0x30, 0x23, 0x23, 0x23, 0x23], by decide, by decide, by decide, _, rfl⟩

theorem witness_DecpDecodesBodyThenTail_body :
    ∃ s : State, s.inp.ibuf ≠ [] ∧ s.inp.ibuf.length % 5 = 0 ∧
      s.inp.ibuf[s.inp.ibuf.length - 5]? = some SENTINEL ∧
      ∃ u v, exec .decs (s.onBuffer (s.inp.ibuf.take (s.inp.ibuf.length - 5))) = .next u ∧
        exec (.tdec (groupAt s.inp.ibuf (s.inp.ibuf.length - 5))) s = .next v ∧ u.out.st ≠ .ok :=
  ⟨withBuf [0x48, 0x65, 0x5F, 0x6C, 0x6F, 0x23, 0x23, 0x23, 0x23, 0x30], by decide, by decide, by decide, _, _,
    rfl, rfl, by decide⟩

theorem witness_DecpDecodesBodyThenTail_badTail :
    ∃ s : State, s.inp.ibuf ≠ [] ∧ s.inp.ibuf.length % 5 = 0 ∧
      s.inp.ibuf[s.inp.ibuf.length - 5]? = some SENTINEL ∧
      ∃ u v, exec .decs (s.onBuffer (s.inp.ibuf.take (s.inp.ibuf.length - 5))) = .next u ∧
        exec (.tdec (groupAt s.inp.ibuf (s.inp.ibuf.length - 5))) s = .next v ∧ u.out.st = .ok ∧
          v.out.st = .invalidTail :=
  ⟨withBuf [0x48, 0x65, 0x6C, 0x6C, 0x6F, 0x23, 0x23, 0x23, 0x23, 0x5F], by decide, by decide, by decide, _, _,
    rfl, rfl, by decide, by decide⟩

theorem witness_DecpDecodesBodyThenTail_badByte :
    ∃ s : State, s.inp.ibuf ≠ [] ∧ s.inp.ibuf.length % 5 = 0 ∧
      s.inp.ibuf[s.inp.ibuf.length - 5]? = some SENTINEL ∧
      ∃ u v, exec .decs (s.onBuffer (s.inp.ibuf.take (s.inp.ibuf.length - 5))) = .next u ∧
        exec (.tdec (groupAt s.inp.ibuf (s.inp.ibuf.length - 5))) s = .next v ∧ u.out.st = .ok ∧
          v.out.st = .invalidByte :=
  ⟨withBuf [0x48, 0x65, 0x6C, 0x6C, 0x6F, 0x23, 0x23, 0x39, 0x25, 0x5F], by decide, by decide, by decide, _, _,
    rfl, rfl, by decide, by decide⟩

theorem witness_DecpDecodesBodyThenTail_ok :
    ∃ s : State, s.inp.ibuf ≠ [] ∧ s.inp.ibuf.length % 5 = 0 ∧
      s.inp.ibuf[s.inp.ibuf.length - 5]? = some SENTINEL ∧
      ∃ u v, exec .decs (s.onBuffer (s.inp.ibuf.take (s.inp.ibuf.length - 5))) = .next u ∧
        exec (.tdec (groupAt s.inp.ibuf (s.inp.ibuf.length - 5))) s = .next v ∧ u.out.st = .ok ∧ v.out.st = .ok :=
  ⟨withBuf [0x48, 0x65, 0x6C, 0x6C, 0x6F, 0x23, 0x23, 0x34, 0x3A, 0x48], by decide, by decide, by decide, _, _,
    rfl, rfl, by decide, by decide⟩

theorem witness_DecpAmbiguityGuard :
    ∃ s t : State, s.inp.ibuf ≠ [] ∧ s.inp.ibuf.length % 5 = 0 ∧
      s.inp.ibuf[s.inp.ibuf.length - 5]? = some SENTINEL ∧ exec .decp s = .next t ∧ t.out.st = .invalidChunk :=
  ⟨withBuf [0x25, 0x6E, 0x53, 0x63, 0x31, 0x23, 0x23, 0x23, 0x23, 0x23], _, by decide, by decide, by decide, rfl,
    by decide⟩

theorem witness_DecpAmbiguityGuard_notLast :
    ∃ (s : State) (ci d0 d1 d2 d3 d4 : Nat), s.inp.ibuf.length % 5 = 0 ∧ 5 * ci + 5 < s.inp.ibuf.length ∧
      (∀ cj v, cj < ci → exec (.dec (groupAt s.inp.ibuf (5 * cj))) s = .next v → v.out.st = .ok) ∧
      HasDigits (groupAt s.inp.ibuf (5 * ci)) d0 d1 d2 d3 d4 ∧ s.inp.ibuf[5 * ci]? = some SENTINEL :=
  ⟨withBuf [0x23, 0x23, 0x34, 0x3A, 0x48, 0x48, 0x65, 0x6C, 0x6C, 0x6F], 0, 84, 84, 4, 64, 43, by decide,
    by decide, by omega, by unfold HasDigits; decide, by decide⟩

theorem witness_ValsAgreesWithDecs :
    ∃ s u : State, exec .decs s = .next u :=
  ⟨withBuf [0x48, 0x65, 0x6C, 0x6C, 0x6F, 0x23, 0x23, 0x23, 0x23, 0x23], _, rfl⟩

theorem witness_DecusDecodesValidatedBuffers :
    ∃ s v u : State, exec .vals s = .next v ∧ v.out.st = .ok ∧ exec .decs s = .next u :=
  ⟨withBuf [0x48, 0x65, 0x6C, 0x6C, 0x6F, 0x57, 0x6F, 0x72, 0x6C, 0x64], _, _, rfl, by decide, rfl⟩

theorem witness_SequencerExpandsIntoTransactions :
    (∃ s : State, s.inp.ibuf.length % 4 = 0 ∧ s.inp.ibuf ≠ []) ∧
    (∃ s : State, s.inp.ibuf.length % 5 = 0 ∧ validateStrict s.inp.ibuf = .ok () ∧ s.inp.ibuf ≠ []) ∧
    ∃ s u : State, s.inp.ibuf ≠ [] ∧ s.inp.ibuf.length % 5 = 0 ∧
      exec (.tdet (groupAt s.inp.ibuf (s.inp.ibuf.length - 5))) s = .next u ∧ u.out.istail = true :=
  ⟨⟨withBuf [0x86, 0x4F, 0xD2, 0x6F], by decide, by decide⟩,
    ⟨withBuf [0x48, 0x65, 0x6C, 0x6C, 0x6F, 0x57, 0x6F, 0x72, 0x6C, 0x64], by decide, by decide, by decide⟩,
    withBuf [0x48, 0x65, 0x6C, 0x6C, 0x6F, 0x23, 0x23, 0x34, 0x3A, 0x48], _, by decide, by decide, rfl, by decide⟩

theorem witness_SequencerExpandsIntoTransactions_noTail :
    ∃ s u : State, s.inp.ibuf ≠ [] ∧ s.inp.ibuf.length % 5 = 0 ∧
      exec (.tdet (groupAt s.inp.ibuf (s.inp.ibuf.length - 5))) s = .next u ∧ u.out.istail = false :=
  ⟨withBuf [0x48, 0x65, 0x6C, 0x6C, 0x6F, 0x57, 0x6F, 0x72, 0x6C, 0x64], _, by decide, by decide, rfl, by decide⟩

theorem witness_StrictRoundTrip :
    ([0x86, 0x4F, 0xD2, 0x6F, 0xB5, 0x59, 0xF7, 0x5B] : List Byte).length % 4 = 0 := by decide

theorem witness_AcceptedTextIsCanonical :
    (∃ s t : State, exec .decs s = .next t ∧ t.out.st = .ok ∧ s.inp.ibuf ≠ []) ∧
    ∃ s t : State, exec .decp s = .next t ∧ t.out.st = .ok ∧ s.inp.ibuf ≠ [] :=
  ⟨⟨withBuf [0x48, 0x65, 0x6C, 0x6C, 0x6F, 0x57, 0x6F, 0x72, 0x6C, 0x64], _, rfl, by decide, by decide⟩,
    withBuf [0x48, 0x65, 0x6C, 0x6C, 0x6F, 0x23, 0x23, 0x34, 0x3A, 0x48], _, rfl, by decide, by decide⟩

theorem witness_EncodersEmitPrintableAscii :
    ∃ (i : Instr) (s t : State) (b : Byte), i.wellFormed = true ∧ i.opcode ∈ [0x0, 0x5, 0x8, 0xA] ∧
      exec i s = .next t ∧ b ∈ bytesAt (formatOf i) t.out :=
  ⟨.encp, withBuf [0x86], _, 0x4E, by decide, by decide, rfl, by decide⟩

theorem witness_ResultLengths :
    (∃ s t : State, exec .encs s = .next t ∧ t.out.st = .ok ∧ s.inp.ibuf ≠ []) ∧
    (∃ s t : State, exec .encp s = .next t ∧ s.inp.ibuf ≠ []) ∧
    ∃ s t : State, exec .decs s = .next t ∧ t.out.st = .ok ∧ s.inp.ibuf ≠ [] :=
  ⟨⟨withBuf [0x86, 0x4F, 0xD2, 0x6F], _, rfl, by decide, by decide⟩, ⟨withBuf [0x86, 0x4F, 0xD2, 0x6F, 0xB5], _,
    rfl, by decide⟩,
    withBuf [0x48, 0x65, 0x6C, 0x6C, 0x6F], _, rfl, by decide, by decide⟩

theorem witness_ResultLengths_decp :
    ∃ s t u : State, exec .decp s = .next t ∧ t.out.st = .ok ∧ s.inp.ibuf ≠ [] ∧
      exec (.tdet (groupAt s.inp.ibuf (s.inp.ibuf.length - 5))) s = .next u ∧ u.out.diff = 2 :=
  ⟨withBuf [0x48, 0x65, 0x6C, 0x6C, 0x6F, 0x23, 0x23, 0x34, 0x3A, 0x48], _, _, rfl, by decide, by decide, rfl,
    by decide⟩

theorem witness_VariantsMeetOnlyWithoutTail :
    (∃ (b : List Byte) (s t : State), b.length % 4 = 0 ∧ b ≠ [] ∧ exec .encs (s.onBuffer b) = .next t) ∧
    ∃ (b : List Byte) (s t : State), b.length % 4 ≠ 0 ∧ exec .encp (s.onBuffer b) = .next t :=
  ⟨⟨[0x86, 0x4F, 0xD2, 0x6F], State.reset, _, by decide, by decide, rfl⟩, [0x86, 0x4F, 0xD2, 0x6F, 0x86, 0x4F],
    State.reset, _, by decide, rfl⟩

theorem witness_ChunksAreIndependent_encode :
    ∃ (b b' : List Byte) (s t t' : State) (ci : Nat), b ≠ b' ∧ b.length % 4 = 0 ∧ b'.length % 4 = 0 ∧
      4 * ci + 4 ≤ b.length ∧ 4 * ci + 4 ≤ b'.length ∧ memRead b (4 * ci) 4 = memRead b' (4 * ci) 4 ∧
      exec .encs (s.onBuffer b) = .next t ∧ exec .encs (s.onBuffer b') = .next t' :=
  ⟨[0x00, 0x00, 0x00, 0x00, 0x86, 0x4F, 0xD2, 0x6F], [0xFF, 0xFF, 0xFF, 0xFF, 0x86, 0x4F, 0xD2, 0x6F],
    State.reset, _, _, 1, by decide, by decide, by decide, by decide,
    by decide, by decide, rfl, rfl⟩

theorem witness_ChunksAreIndependent_decode :
    ∃ (b b' : List Byte) (s t t' : State) (ci : Nat), b ≠ b' ∧ 5 * ci + 5 ≤ b.length ∧ 5 * ci + 5 ≤ b'.length ∧
      memRead b (5 * ci) 5 = memRead b' (5 * ci) 5 ∧ exec .decs (s.onBuffer b) = .next t ∧ t.out.st = .ok ∧
      exec .decs (s.onBuffer b') = .next t' ∧ t'.out.st = .ok :=
  ⟨[0x30, 0x30, 0x30, 0x30, 0x30, 0x48, 0x65, 0x6C, 0x6C, 0x6F],
    [0x57, 0x6F, 0x72, 0x6C, 0x64, 0x48, 0x65, 0x6C, 0x6C, 0x6F], State.reset, _, _, 1, by decide, by decide,
      by decide, by decide, rfl, by decide,
    rfl, by decide⟩

theorem witness_LeftmostErrorWins :
    ∃ (b b' : List Byte) (s t : State), b.length % 5 = 0 ∧ b'.length % 5 = 0 ∧ exec .decs (s.onBuffer b) = .next t ∧
      t.out.st ≠ .ok :=
  ⟨[0x25, 0x6E, 0x53, 0x63, 0x31], [0x48, 0x65, 0x20, 0x6C, 0x6F], State.reset, _, by decide, by decide, rfl, by decide⟩

theorem witness_LeftmostErrorWins_ok :
    ∃ (b b' : List Byte) (s t t' : State), b.length % 5 = 0 ∧ b'.length % 5 = 0 ∧ exec .decs (s.onBuffer b) = .next t ∧
      t.out.st = .ok ∧ exec .decs (s.onBuffer b') = .next t' ∧ t'.out.st = .ok :=
  ⟨[0x48, 0x65, 0x6C, 0x6C, 0x6F], [0x57, 0x6F, 0x72, 0x6C, 0x64], State.reset, _, _, by decide, by decide, rfl,
    by decide, rfl, by decide⟩

theorem witness_TruncatedTexts :
    (9 ≤ ([0x48, 0x65, 0x6C, 0x6C, 0x6F, 0x57, 0x6F, 0x72, 0x6C, 0x64] : List Byte).length ∧ 9 % 5 ≠ 0 ∧
      Instr.decp ∈ [Instr.decs, .decp, .vals]) ∧
    ∃ (b : List Byte) (m : Nat) (s t : State), exec .decs (s.onBuffer b) = .next t ∧ t.out.st = .ok ∧
      5 * m < b.length :=
  ⟨by decide, [0x48, 0x65, 0x6C, 0x6C, 0x6F, 0x57, 0x6F, 0x72, 0x6C, 0x64], 1, State.reset, _, rfl, by decide,
    by decide⟩

theorem witness_TailGroupIsLegalOnlyAtTheEnd :
    ∃ (b text : List Byte) (s t : State), b.length % 4 ≠ 0 ∧ exec .encp (s.onBuffer b) = .next t ∧ text ≠ [] ∧
      text.length % 5 = 0 :=
  ⟨[0x86, 0x4F], [0x48, 0x65, 0x6C, 0x6C, 0x6F], State.reset, _, by decide, rfl, by decide, by decide⟩

theorem witness_OperationsReportOnlyTheirErrors :
    ∃ (i : Instr) (s t : State), exec i s = .next t ∧ t.out.st = .invalidTail :=
  ⟨.tdec ⟨0x48, 0x65, 0x6C, 0x6C, 0x6F⟩, State.reset, _, rfl, by decide⟩

theorem witness_ResultDependsOnInputsAlone :
    ∃ (i : Instr) (s s' t t' : State), preconditionHolds i s.inp.ibuf ∧
      (formatOf i = .sequencer → s.inp.ibuf = s'.inp.ibuf) ∧ s.draws ≠ s'.draws ∧ exec i s = .next t ∧
        exec i s' = .next t' :=
  ⟨.decus, withBuf [0x48, 0x65, 0x6C, 0x6C, 0x6F, 0x57, 0x6F, 0x72, 0x6C, 0x64],
    { withBuf [0x48, 0x65, 0x6C, 0x6C, 0x6F, 0x57, 0x6F, 0x72, 0x6C, 0x64] with draws := 7 }, _, _, (by decide : validateStrict _ = _), fun _ => rfl,
    by decide, rfl, rfl⟩

theorem witness_ResultDependsOnInputsAlone_chunk :
    ∃ (i : Instr) (s s' t t' : State), preconditionHolds i s.inp.ibuf ∧ formatOf i = .chunk ∧
      s.inp.ibuf ≠ s'.inp.ibuf ∧ exec i s = .next t ∧ exec i s' = .next t' :=
  ⟨.decu ⟨0x25, 0x6E, 0x53, 0x63, 0x30⟩, State.reset, withBuf [1], _, _, (by decide : validateChunk _ = _),
    by decide, by decide, rfl, rfl⟩

theorem witness_StepKeepsPortsLegal :
    ∃ s t : State, s.PortsLegal ∧ s.out.st = .invalidChunk ∧ step s = .next t ∧ t.out.st = .invalidByte :=
  ⟨{ State.reset with
      inp := ⟨0x580000000000#47, [0x25, 0x6E, 0x53, 0x63, 0x31, 0x23, 0x23, 0x23, 0x23, 0x23]⟩
      out := { State.reset.out with st := .invalidChunk, eposAbs := 0 }
      pending := [⟨0x08256E53635F#47, []⟩] }, _, by
    intro i hi
    have h : decode 0x580000000000#47 = .ok .decp := by decide
    have : i = .decp := Except.ok.inj (hi.symm.trans h)
    subst this
    exact ⟨.inr (by decide), fun h => absurd h (by decide),
      fun _ => ⟨fun _ => rfl, fun h => absurd h (by decide), fun h => absurd h (by decide),
      fun _ => by decide⟩⟩, rfl, rfl, by decide⟩

theorem witness_ResetIssuesNothing :
    ∃ i : Instr, i.wellFormed = true :=
  ⟨.vals, by decide⟩

theorem witness_LengthsAndPositionsFitPosW :
    ∃ (i : Instr) (s t : State) (posW : Nat), Config.fitsPosW posW s.inp.ibuf.length ∧ formatOf i = .sequencer ∧
      preconditionHolds i s.inp.ibuf ∧ exec i s = .next t ∧ t.out.st = .invalidByte :=
  ⟨.decp, withBuf [0x48, 0x65, 0x6C, 0x6C, 0x6F, 0x23, 0x23, 0x39, 0x25, 0x5F],
    _, 4, (by decide : (10 + 3) / 4 * 5 < 2 ^ 4), rfl, trivial, rfl, by decide⟩

end Sys2Proof.Tests
end

section
/-! SUPPORT. How long the result of each loop, group and tail is, and how far into its input an error can point. -/

namespace Sys2Proof.Machine

/-! ### Errors that point into their input -/

/-- The error speaks of an input of `n` bytes: the length it reports is at most `n`, the position it reports is the
index of one of them (R111 to R113). -/
def Error.Within (n : Nat) : Error → Prop
  | .invalidLength m => m ≤ n
  | .invalidByte i _ => i < n
  | .invalidChunk p => p < n
  | .invalidTail => True

@[simp] theorem within_invalidLength {n m : Nat} : (Error.invalidLength m).Within n ↔ m ≤ n := .rfl
@[simp] theorem within_invalidByte {n i : Nat} {c : Byte} : (Error.invalidByte i c).Within n ↔ i < n := .rfl
@[simp] theorem within_invalidChunk {n p : Nat} : (Error.invalidChunk p).Within n ↔ p < n := .rfl
@[simp] theorem within_invalidTail {n : Nat} : Error.invalidTail.Within n := trivial

/-- Rebasing (R98) moves an error of a group at offset `base` into any buffer that holds the group. -/
theorem Error.Within.rebase {e : Error} {m n base : Nat} (he : e.Within m) (hn : base + m ≤ n) :
    (e.rebase base).Within n := by
  cases e <;> simp only [Error.rebase, within_invalidLength, within_invalidByte, within_invalidChunk,
    within_invalidTail] at he ⊢ <;> omega

theorem Error.Within.mono {e : Error} {m n : Nat} (he : e.Within m) (hn : m ≤ n) : e.Within n := by
  cases e with
  | invalidLength k => exact le_trans he hn
  | invalidByte i c => exact lt_of_lt_of_le he hn
  | invalidChunk p => exact lt_of_lt_of_le he hn
  | invalidTail => exact within_invalidTail

/-! ### One group -/

theorem chunkValue_error_within {g : Byte5} {e : Error} (h : chunkValue g = .error e) : e.Within 5 := by
  obtain ⟨i, c, -, hi, hv⟩ | ⟨_, _, _, _, _, -, ⟨-, hv⟩ | ⟨-, hv⟩⟩ := chunkValue_cases g
  · obtain rfl : Error.invalidByte i c = e := by simpa [hv] using h
    exact within_invalidByte.mpr (by omega)
  · obtain rfl : Error.invalidChunk 0 = e := by simpa [hv] using h
    exact within_invalidChunk.mpr (by omega)
  · simp [hv] at h

theorem decodeChunk_error_iff {g : Byte5} {e : Error} : decodeChunk g = .error e ↔ chunkValue g = .error e := by
  cases h : chunkValue g <;> simp [decodeChunk, h]

theorem decodeChunk_ok_length {g : Byte5} {l : List Byte} (h : decodeChunk g = .ok l) : l.length = 4 := by
  cases hv : chunkValue g with
  | error e => simp [decodeChunk, hv] at h
  | ok acc =>
    obtain rfl : bytes4 (bytesBe32 acc) = l := by simpa [decodeChunk, hv] using h
    rfl

/-- `VAL` and `DEC` take the same walk (R79, D22): each class of the one is an outcome of the other. -/
theorem validateChunk_cases (g : Byte5) :
    (∃ i c, validateChunk g = .badByte i c ∧ decodeChunk g = .error (.invalidByte i c)) ∨
    (validateChunk g = .tooLarge ∧ decodeChunk g = .error (.invalidChunk 0)) ∨
    (validateChunk g = .fine ∧ ∃ l, decodeChunk g = .ok l) := by
  cases hw : walk 0 0 (bytes5 g) with
  | badByte i c => exact .inl ⟨i, c, by simp [validateChunk, hw], by simp [decodeChunk, chunkValue, hw]⟩
  | value acc =>
    by_cases hm : MAX32 < acc
    · exact .inr (.inl ⟨by simp [validateChunk, hw, hm], by simp [decodeChunk, chunkValue, hw, hm]⟩)
    · exact .inr (.inr ⟨by simp [validateChunk, hw, hm], by simp [decodeChunk, chunkValue, hw, hm]⟩)

/-- What the tail decoder answers (R92): an error of the tail group, or one to three bytes. -/
theorem decodeTail_cases (g : Byte5) :
    (∃ e, decodeTail g = .error e ∧ e.Within 5) ∨
    (∃ l, decodeTail g = .ok l ∧ l.length = 4 - sentinelCount g ∧ IsTail l) := by
  by_cases hk : sentinelCount g < DIFF_MIN ∨ DIFF_MAX < sentinelCount g
  · exact .inl ⟨.invalidTail, by simp [decodeTail, hk], within_invalidTail⟩
  cases hv : chunkValue (rewriteTail (sentinelCount g) g) with
  | error e => exact .inl ⟨e, by simp [decodeTail, hk, hv], chunkValue_error_within hv⟩
  | ok acc =>
    by_cases hacc : 256 ^ (4 - sentinelCount g) - 1 < acc
    · exact .inl ⟨.invalidTail, by simp [decodeTail, hk, hv, hacc], within_invalidTail⟩
    · have hlen : ((bytes4 (bytesBe32 acc)).drop (sentinelCount g)).length = 4 - sentinelCount g := by simp
      refine .inr ⟨_, by simp [decodeTail, hk, hv, hacc], hlen, ?_⟩
      simp only [DIFF_MIN, DIFF_MAX] at hk
      rw [IsTail, hlen]
      omega

/-! ### The loops over a buffer -/

theorem decodeGroups_error_within {buf : List Byte} {k ci : Nat} {e : Error} (h : decodeGroups buf k ci = .error e) :
    e.Within (5 * (ci + k)) := by
  obtain ⟨j, e', hj, he', -, hd⟩ | ⟨_, -, -, hd⟩ := decodeGroups_cases buf k ci
  · obtain rfl : e'.rebase (5 * (ci + j)) = e := by simpa [hd] using h
    exact (chunkValue_error_within (decodeChunk_error_iff.mp he')).rebase (by omega)
  · simp [hd] at h

theorem decodeGroups_ok_length {buf : List Byte} {k ci : Nat} {l : List Byte} (h : decodeGroups buf k ci = .ok l) :
    l.length = 4 * k := by
  obtain ⟨_, _, -, -, -, hd⟩ | ⟨ls, hlen, hls, hd⟩ := decodeGroups_cases buf k ci
  · simp [hd] at h
  · obtain rfl : ls.flatten = l := by simpa [hd] using h
    have hfour : ∀ m ∈ ls.map List.length, m = 4 := by
      simp only [List.mem_map, forall_exists_index, and_imp, forall_apply_eq_imp_iff₂]
      intro l' hl'
      obtain ⟨j, hj, rfl⟩ := List.mem_iff_getElem.mp hl'
      obtain ⟨l'', hl'', hdec⟩ := hls j (by omega)
      obtain rfl : ls[j] = l'' := by simpa [hj] using hl''
      exact decodeChunk_ok_length hdec
    rw [List.length_flatten, List.sum_eq_card_nsmul _ 4 hfour, List.length_map, hlen, smul_eq_mul, Nat.mul_comm]

theorem decodeGroupsTrusted_length (buf : List Byte) (k ci : Nat) : (decodeGroupsTrusted buf k ci).length = 4 * k := by
  induction k generalizing ci with
  | zero => rfl
  | succ k ih => simp [decodeGroupsTrusted, ih]; omega

/-- `VALS` is `DECS` with the bytes dropped (R106, D24), loop by loop. -/
theorem validateGroups_eq_map_decodeGroups (buf : List Byte) (k ci : Nat) :
    validateGroups buf k ci = (decodeGroups buf k ci).map fun _ => () := by
  induction k generalizing ci with
  | zero => rfl
  | succ k ih =>
    obtain ⟨i, c, hval, hdec⟩ | ⟨hval, hdec⟩ | ⟨hval, l, hdec⟩ := validateChunk_cases (groupAt buf (5 * ci))
    · simp [validateGroups, decodeGroups, hval, hdec, Error.rebase, Except.map]
    · simp [validateGroups, decodeGroups, hval, hdec, Error.rebase, Except.map]
    · cases hrest : decodeGroups buf k (ci + 1) <;>
        simp [validateGroups, decodeGroups, hval, hdec, ih, hrest, Except.map]

/-- `VALS` is `DECS` with the bytes dropped (R106, D24). -/
theorem validateStrict_eq_map_decodeStrict (buf : List Byte) :
    validateStrict buf = (decodeStrict buf).map fun _ => () := by
  by_cases h : buf.length % ENC_W = 0
  · simp [validateStrict, decodeStrict, h, validateGroups_eq_map_decodeGroups]
  · simp [validateStrict, decodeStrict, h, Except.map]

/-- Where there is no tail group, `DECP` is `DECS` (R102, R103). -/
theorem decodePadded_eq_decodeStrict {buf : List Byte}
    (h : buf.length = 0 ∨ buf.length % ENC_W ≠ 0 ∨ isTail (groupAt buf (buf.length - 5)) = false) :
    decodePadded buf = decodeStrict buf := by
  by_cases hn : buf.length = 0
  · simp [decodePadded, decodeStrict, hn, decodeGroups]
  by_cases hm : buf.length % ENC_W = 0
  · have ht : isTail (groupAt buf (buf.length - 5)) = false := by simpa [hn, hm] using h
    cases hd : decodeGroups buf (buf.length / ENC_W) 0 <;> simp [decodePadded, decodeStrict, hn, hm, ht, hd]
  · simp [decodePadded, decodeStrict, hn, hm]

/-- What `DECP` answers where the last group is a tail group (R102): an error before it, its own error, or all bytes. -/
theorem decodePadded_tail_cases {buf : List Byte} (hn : buf.length ≠ 0) (hm : buf.length % ENC_W = 0)
    (ht : isTail (groupAt buf (buf.length - 5)) = true) :
    (∃ e, decodeGroups buf (buf.length / ENC_W - 1) 0 = .error e ∧ decodePadded buf = .error e) ∨
    (∃ l, decodeGroups buf (buf.length / ENC_W - 1) 0 = .ok l ∧
      ((∃ e, decodeTail (groupAt buf (buf.length - 5)) = .error e ∧
          decodePadded buf = .error (e.rebase (buf.length - 5))) ∨
        (∃ tail, decodeTail (groupAt buf (buf.length - 5)) = .ok tail ∧ decodePadded buf = .ok (l ++ tail)))) := by
  cases hd : decodeGroups buf (buf.length / ENC_W - 1) 0 with
  | error e => exact .inl ⟨e, rfl, by simp [decodePadded, hn, hm, ht, hd]⟩
  | ok l =>
    cases hdt : decodeTail (groupAt buf (buf.length - 5)) with
    | error e => exact .inr ⟨l, rfl, .inl ⟨e, rfl, by simp [decodePadded, hn, hm, ht, hd, hdt]⟩⟩
    | ok tail => exact .inr ⟨l, rfl, .inr ⟨tail, rfl, by simp [decodePadded, hn, hm, ht, hd, hdt]⟩⟩

end Sys2Proof.Machine
end

section
/-! PROOF of `LengthsAndPositionsFitPosW`. The result of every sequencer operation fits the encoded length
`ceil(ILEN/4)*5` and its error points into the buffer (`ResultFits`, one lemma per operation); what a completed
transaction drives then fits too (`PortsFit`), and `2^POS_W` is above all of it (D10). -/

namespace Sys2Proof.Machine

/-- `ceil(n/4)*5`, the length of `n` bytes once encoded, which D10 wants below `2^POS_W`. -/
def encodedLength (n : Nat) : Nat := (n + 3) / 4 * 5

theorem le_encodedLength (n : Nat) : n ≤ encodedLength n := by
  rw [encodedLength]; omega

/-- A result on an input of `n` bytes: no longer than the input encoded, or an error that speaks of the input. -/
def ResultFits (n : Nat) : Except Error (List Byte) → Prop
  | .ok l => l.length ≤ encodedLength n
  | .error e => e.Within n

/-- The lengths and positions that stand on the ports after a sequencer operation on `n` bytes (R20). -/
def PortsFit (n : Nat) (o : Outputs) : Prop :=
  o.olenS ≤ encodedLength n ∧
  (o.st = .invalidLength → o.elen ≤ n) ∧
  (o.st = .invalidByte ∨ o.st = .invalidChunk → o.eposAbs < n)

/-! ### From the result to the ports -/

theorem portsFit_deliverBuffer {n : Nat} {l : List Byte} (h : l.length ≤ encodedLength n) (d : Nat) :
    PortsFit n (deliverBuffer d l) := by
  simpa [PortsFit] using h

theorem portsFit_deliverNoBuffer (n d : Nat) : PortsFit n (deliverNoBuffer d) := by
  simp [PortsFit]

theorem portsFit_raise {n : Nat} {e : Error} (h : e.Within n) (d : Nat) : PortsFit n (raise .sequencer e d) := by
  cases e with
  | invalidLength m => simpa [PortsFit, Error.status] using h
  | invalidByte i c => simpa [PortsFit, Error.status] using h
  | invalidChunk p => simpa [PortsFit, Error.status] using h
  | invalidTail => simp [PortsFit, Error.status]

theorem completeBuffer_portsFit {s t : State} {n : Nat} {res : Except Error (List Byte)} (hres : ResultFits n res)
    (h : completeBuffer s res = .next t) : PortsFit n t.out := by
  obtain ⟨l, rfl, rfl⟩ | ⟨e, rfl, rfl⟩ := completeBuffer_next.mp h
  · exact portsFit_deliverBuffer hres _
  · exact portsFit_raise hres _

/-! ### The result of each operation -/

theorem encodeStrict_fits (buf : List Byte) : ResultFits buf.length (encodeStrict buf) := by
  rw [encodeStrict]
  split
  · exact within_invalidLength.mpr le_rfl
  · simp only [ResultFits, encodeChunks_length, encodedLength, RAW_W]
    omega

/-- The tail group, where there is one, is the chunk that the rounding up counts (R101). -/
theorem encodePadded_length (buf : List Byte) : (encodePadded buf).length = encodedLength buf.length := by
  by_cases hr : buf.length % RAW_W = 0
  · simp only [encodePadded, hr, ne_eq, not_true_eq_false, if_false, encodeChunks_length, encodedLength]
    simp only [RAW_W] at hr ⊢
    omega
  · simp only [encodePadded, hr, ne_eq, not_false_eq_true, if_true, List.length_append, encodeChunks_length,
      bytes5_length, encodedLength]
    simp only [RAW_W] at hr ⊢
    omega

theorem decodeStrict_fits (buf : List Byte) : ResultFits buf.length (decodeStrict buf) := by
  rw [decodeStrict]
  split
  next => exact within_invalidLength.mpr le_rfl
  next hmod =>
    simp only [ENC_W] at hmod ⊢
    cases hd : decodeGroups buf (buf.length / 5) 0 with
    | error e => exact (decodeGroups_error_within hd).mono (by omega)
    | ok l =>
      have := decodeGroups_ok_length hd
      have := le_encodedLength buf.length
      simp only [ResultFits]
      omega

theorem decodePadded_fits (buf : List Byte) : ResultFits buf.length (decodePadded buf) := by
  by_cases h : buf.length = 0 ∨ buf.length % ENC_W ≠ 0 ∨ isTail (groupAt buf (buf.length - 5)) = false
  · exact decodePadded_eq_decodeStrict h ▸ decodeStrict_fits buf
  obtain ⟨hn, hm, ht⟩ :
      buf.length ≠ 0 ∧ buf.length % ENC_W = 0 ∧ isTail (groupAt buf (buf.length - 5)) = true := by
    simpa using h
  have hcases := decodePadded_tail_cases hn hm ht
  simp only [ENC_W] at hm hcases
  obtain ⟨e, hd, hp⟩ | ⟨l, hd, ⟨e, hdt, hp⟩ | ⟨tail, hdt, hp⟩⟩ := hcases
  · exact hp ▸ (decodeGroups_error_within hd).mono (by omega)
  · obtain ⟨e', he', hw⟩ | ⟨l', hl', -⟩ := decodeTail_cases (groupAt buf (buf.length - 5))
    · obtain rfl : e' = e := by simpa [hdt] using he'.symm
      exact hp ▸ hw.rebase (by omega)
    · simp [hdt] at hl'
  · obtain ⟨e', he', -⟩ | ⟨l', hl', -, -, htail⟩ := decodeTail_cases (groupAt buf (buf.length - 5))
    · simp [hdt] at he'
    · obtain rfl : l' = tail := by simpa [hdt] using hl'.symm
      have hbody := decodeGroups_ok_length hd
      have := le_encodedLength buf.length
      simp only [hp, ResultFits, List.length_append]
      omega

theorem decodeStrictUnchecked_fits {buf : List Byte} (h : validateStrict buf = .ok ()) (free : List Byte) :
    ResultFits buf.length (.ok (decodeStrictUnchecked buf free)) := by
  have := le_encodedLength buf.length
  simp only [ResultFits, decodeStrictUnchecked, h, decodeGroupsTrusted_length, ENC_W]
  omega

/-! ### Every sequencer operation -/

theorem execVals_portsFit {s t : State} (h : execVals s = .next t) : PortsFit s.inp.ibuf.length t.out := by
  have hdec := decodeStrict_fits s.inp.ibuf
  rw [execVals, validateStrict_eq_map_decodeStrict] at h
  cases hd : decodeStrict s.inp.ibuf with
  | ok l =>
    rw [hd] at h
    obtain rfl := complete_next.mp h
    exact portsFit_deliverNoBuffer _ _
  | error e =>
    rw [hd] at h hdec
    obtain rfl := complete_next.mp h
    exact portsFit_raise hdec _

theorem exec_sequencer_portsFit {i : Instr} {s t : State} (hformat : formatOf i = .sequencer)
    (hpre : preconditionHolds i s.inp.ibuf) (h : exec i s = .next t) : PortsFit s.inp.ibuf.length t.out := by
  cases i with
  | enc | dec | val | decu | tdet | tenc | tdec => cases hformat
  | encs => exact completeBuffer_portsFit (encodeStrict_fits _) h
  | decs => exact completeBuffer_portsFit (decodeStrict_fits _) h
  | encp => exact completeBuffer_portsFit (res := .ok _) (encodePadded_length _).le h
  | decp => exact completeBuffer_portsFit (decodePadded_fits _) h
  | vals => exact execVals_portsFit h
  | decus => exact completeBuffer_portsFit (decodeStrictUnchecked_fits hpre _) h

/-- Settles O52: lengths and positions are at most `ceil(ILEN/4)*5`, which D10 puts below `2^POS_W`. -/
theorem lengthsAndPositionsFitPosW : Obligations.LengthsAndPositionsFitPosW := by
  intro i s t posW hroom hformat hpre hexec
  obtain ⟨holen, helen, hpos⟩ := exec_sequencer_portsFit hformat hpre hexec
  have hroom : encodedLength s.inp.ibuf.length < 2 ^ posW := hroom
  have hilen : s.inp.ibuf.length < 2 ^ posW := (le_encodedLength _).trans_lt hroom
  exact ⟨hilen, holen.trans_lt hroom, fun hst => (helen hst).trans_lt hilen, fun hst => (hpos hst).trans hilen⟩

end Sys2Proof.Machine
end

section
/-! SUPPORT. What may be read after each operation, said once as a function of its operands and of the buffer:
`resultOf` is the operation as a function (R19), `Shows` says that ports carry a result, `exec_reading` joins them. -/

namespace Sys2Proof.Machine

/-! ### Errors of one group -/

/-- The error is one that a chunk operation can report: a local offset within the group, and no length (R18, R112,
R113). -/
def Error.IsLocal : Error → Prop
  | .invalidLength _ => False
  | .invalidByte i _ => i ≤ 4
  | .invalidChunk p => p = 0
  | .invalidTail => True

theorem chunkValue_error_isLocal {g : Byte5} {e : Error} (h : chunkValue g = .error e) : e.IsLocal := by
  obtain ⟨i, c, -, hi, hv⟩ | ⟨_, _, _, _, _, -, ⟨-, hv⟩ | ⟨-, hv⟩⟩ := chunkValue_cases g
  · obtain rfl : Error.invalidByte i c = e := by simpa [hv] using h
    exact hi
  · obtain rfl : Error.invalidChunk 0 = e := by simpa [hv] using h
    rfl
  · simp [hv] at h

theorem decodeTail_error_isLocal {g : Byte5} {e : Error} (h : decodeTail g = .error e) : e.IsLocal := by
  by_cases hk : sentinelCount g < DIFF_MIN ∨ DIFF_MAX < sentinelCount g
  · obtain rfl : Error.invalidTail = e := by simpa [decodeTail, hk] using h
    trivial
  cases hv : chunkValue (rewriteTail (sentinelCount g) g) with
  | error e' =>
    obtain rfl : e' = e := by simpa [decodeTail, hk, hv] using h
    exact chunkValue_error_isLocal hv
  | ok acc =>
    by_cases hacc : 256 ^ (4 - sentinelCount g) - 1 < acc
    · obtain rfl : Error.invalidTail = e := by simpa [decodeTail, hk, hv, hacc] using h
      trivial
    · simp [decodeTail, hk, hv, hacc] at h

/-- A result that the ports of a chunk operation can carry in full (R18). -/
def FitsChunkPorts : Except Error (List Byte) → Prop
  | .ok l => l.length ≤ 5
  | .error e => e.IsLocal

theorem decodeChunk_fitsChunkPorts (g : Byte5) : FitsChunkPorts (decodeChunk g) := by
  cases h : decodeChunk g with
  | ok l => exact (decodeChunk_ok_length h).le.trans (by decide)
  | error e => exact chunkValue_error_isLocal (decodeChunk_error_iff.mp h)

theorem decodeTail_fitsChunkPorts (g : Byte5) : FitsChunkPorts (decodeTail g) := by
  obtain ⟨e, he, -⟩ | ⟨l, hl, -, hlen⟩ := decodeTail_cases g
  · exact he ▸ decodeTail_error_isLocal he
  · exact hl ▸ hlen.2.trans (by decide)

/-- Dropping the bytes of a result makes it no larger. -/
theorem FitsChunkPorts.dropBytes {res : Except Error (List Byte)} (h : FitsChunkPorts res) :
    FitsChunkPorts (res.map fun _ => []) := by
  cases res with
  | ok l => exact Nat.zero_le 5
  | error e => exact h

theorem sentinelRun_le_length (l : List Byte) : sentinelRun l ≤ l.length := by
  induction l with
  | nil => exact le_rfl
  | cons c cs ih =>
    by_cases hc : c = SENTINEL
    · simpa [sentinelRun, hc] using ih
    · simp [sentinelRun, hc]

theorem sentinelCount_le (g : Byte5) : sentinelCount g ≤ 5 := sentinelRun_le_length (bytes5 g)

/-- The 3-bit port `DIFF` holds every sentinel count (R18, R85). -/
theorem toNat_ofNat_sentinelCount (g : Byte5) : (BitVec.ofNat 3 (sentinelCount g)).toNat = sentinelCount g := by
  have := sentinelCount_le g
  rw [BitVec.toNat_ofNat]
  omega

/-! ### Ports that carry a result -/

/-- The error a result reports, if any. -/
def errorOf : Except Error (List Byte) → Option Error
  | .ok _ => none
  | .error e => some e

/-- The bytes a result delivers: none with an error (R118). -/
def bytesOf : Except Error (List Byte) → List Byte
  | .ok l => l
  | .error _ => []

/-- What stands at the output ports of the format is the result `res`. -/
def Shows (format : Format) (res : Except Error (List Byte)) (o : Outputs) : Prop :=
  errorAt format o = errorOf res ∧ bytesAt format o = bytesOf res

theorem errorAt_eq_none {format : Format} {o : Outputs} (h : o.st = .ok) : errorAt format o = none := by
  simp [errorAt, h]

theorem errorAt_raise_sequencer (e : Error) (n : Nat) : errorAt .sequencer (raise .sequencer e n) = some e := by
  cases e <;> rfl

/-- A chunk operation's error is read back from the ports as it was raised: its offset fits the 3 bits of `EPOS`. -/
theorem errorAt_raise_chunk {e : Error} (h : e.IsLocal) (n : Nat) : errorAt .chunk (raise .chunk e n) = some e := by
  cases e with
  | invalidLength m => exact h.elim
  | invalidByte i c =>
    have hi : (BitVec.ofNat 3 i).toNat = i := by
      have : i ≤ 4 := h
      rw [BitVec.toNat_ofNat]
      omega
    simp [errorAt, Error.status, hi]
  | invalidChunk p =>
    obtain rfl : p = 0 := h
    rfl
  | invalidTail => rfl

theorem completeChunk_shows {s t : State} {res : Except Error (List Byte)} (hres : FitsChunkPorts res)
    (h : completeChunk s res = .next t) : Shows .chunk res t.out := by
  obtain ⟨l, rfl, rfl⟩ | ⟨e, rfl, rfl⟩ := completeChunk_next.mp h
  · exact ⟨errorAt_eq_none (deliverBytes_st _ _), bytesAt_deliverBytes hres _⟩
  · exact ⟨errorAt_raise_chunk hres _, bytesAt_raise _ _ _⟩

theorem completeBuffer_shows {s t : State} {res : Except Error (List Byte)}
    (h : completeBuffer s res = .next t) : Shows .sequencer res t.out := by
  obtain ⟨l, rfl, rfl⟩ | ⟨e, rfl, rfl⟩ := completeBuffer_next.mp h
  · exact ⟨errorAt_eq_none (deliverBuffer_st _ _), bytesAt_deliverBuffer _ _⟩
  · exact ⟨errorAt_raise_sequencer _ _, bytesAt_raise _ _ _⟩

/-! ### The operations that do not end in `completeChunk` or `completeBuffer` as they stand -/

/-- `VAL` is `DEC` with the bytes dropped (R79, D22). -/
theorem execVal_eq_completeChunk (g : Byte5) (s : State) :
    execVal g s = completeChunk s ((decodeChunk g).map fun _ => []) := by
  obtain ⟨i, c, hval, hdec⟩ | ⟨hval, hdec⟩ | ⟨hval, l, hdec⟩ := validateChunk_cases g <;>
    simp [execVal, hval, hdec, Except.map]

/-- `DECU` within its precondition draws nothing (R81). -/
theorem execDecu_eq_completeChunk {g : Byte5} (h : validateChunk g = .fine) (s : State) :
    execDecu g s = completeChunk s (.ok (bytes4 (decodeChunkTrusted g))) := by
  simp [execDecu, decodeChunkUnchecked, h, completeChunk]

/-- `DECUS` within its precondition draws nothing (R107). -/
theorem execDecus_eq_completeBuffer {s : State} (h : validateStrict s.inp.ibuf = .ok ()) :
    execDecus s = completeBuffer s (.ok (decodeGroupsTrusted s.inp.ibuf (s.inp.ibuf.length / ENC_W) 0)) := by
  simp [execDecus, decodeStrictUnchecked, h]

theorem execTenc_next {l : List Byte} {s t : State} :
    execTenc l s = .next t ↔
      tailWellFormed l = true ∧ completeChunk s (.ok (bytes5 (encodeTail l))) = .next t := by
  by_cases h : tailWellFormed l = true <;> simp [execTenc, completeChunk, h]

/-- `TDEC` is a chunk operation that drives `DIFF` besides (R92). -/
theorem execTdec_next {g : Byte5} {s t : State} (h : execTdec g s = .next t) :
    ∃ t', completeChunk s (decodeTail g) = .next t' ∧
      t.out = { t'.out with diff := BitVec.ofNat 3 (sentinelCount g) } := by
  cases hd : decodeTail g <;> rw [execTdec, hd] at h <;> obtain rfl := complete_next.mp h <;> exact ⟨_, rfl, rfl⟩

theorem execVals_shows {s t : State} (h : execVals s = .next t) :
    Shows .sequencer ((validateStrict s.inp.ibuf).map fun _ => []) t.out := by
  cases hv : validateStrict s.inp.ibuf with
  | ok =>
    rw [execVals, hv] at h
    obtain rfl := complete_next.mp h
    exact ⟨errorAt_eq_none (deliverNoBuffer_st _), by simp [bytesAt, bytesOf, Except.map]⟩
  | error e =>
    rw [execVals, hv] at h
    obtain rfl := complete_next.mp h
    exact ⟨errorAt_raise_sequencer _ _, bytesAt_raise _ _ _⟩

/-! ### Every operation as a function of its inputs -/

/-- The result of the operation on the buffer `ibuf`, as a function (R19); of the unchecked decodes within their
precondition (R81, R107). -/
def resultOf (i : Instr) (ibuf : List Byte) : Except Error (List Byte) :=
  match i with
  | .enc c => .ok (bytes5 (encodeChunk c))
  | .dec g => decodeChunk g
  | .val g => (decodeChunk g).map fun _ => []
  | .decu g => .ok (bytes4 (decodeChunkTrusted g))
  | .tdet _ => .ok []
  | .tenc l => .ok (bytes5 (encodeTail l))
  | .tdec g => decodeTail g
  | .encs => encodeStrict ibuf
  | .decs => decodeStrict ibuf
  | .encp => .ok (encodePadded ibuf)
  | .decp => decodePadded ibuf
  | .vals => (validateStrict ibuf).map fun _ => []
  | .decus => .ok (decodeGroupsTrusted ibuf (ibuf.length / ENC_W) 0)

/-- `ISTAIL`, where the operation drives it (R18, R85). -/
def istailOf : Instr → Option Bool
  | .tdet g => some (isTail g)
  | _ => none

/-- `DIFF`, where the operation drives it (R18, R85, R92). -/
def diffOf : Instr → Option Nat
  | .tdet g => some (sentinelCount g)
  | .tdec g => some (sentinelCount g)
  | _ => none

/-- What may be read after the operation on the buffer `ibuf` (R13, R29). -/
def readingOf (i : Instr) (ibuf : List Byte) : Reading where
  error := errorOf (resultOf i ibuf)
  bytes := bytesOf (resultOf i ibuf)
  istail := istailOf i
  diff := diffOf i

theorem exec_shows {i : Instr} {s t : State} (hpre : preconditionHolds i s.inp.ibuf) (h : exec i s = .next t) :
    Shows (formatOf i) (resultOf i s.inp.ibuf) t.out := by
  cases i with
  | enc c => exact completeChunk_shows (res := .ok _) (bytes5_length _).le h
  | dec g => exact completeChunk_shows (decodeChunk_fitsChunkPorts g) h
  | val g =>
    exact completeChunk_shows (decodeChunk_fitsChunkPorts g).dropBytes ((execVal_eq_completeChunk g s).symm.trans h)
  | decu g =>
    have hlen : FitsChunkPorts (.ok (bytes4 (decodeChunkTrusted g))) := Nat.le_succ 4
    exact completeChunk_shows hlen ((execDecu_eq_completeChunk hpre s).symm.trans h)
  | tdet g =>
    obtain rfl := complete_next.mp h
    exact ⟨errorAt_eq_none rfl, bytesAt_deliverBytes (l := []) (Nat.zero_le 5) _⟩
  | tenc l => exact completeChunk_shows (res := .ok _) (bytes5_length _).le (execTenc_next.mp h).2
  | tdec g =>
    obtain ⟨t', ht', hout⟩ := execTdec_next h
    exact hout ▸ completeChunk_shows (decodeTail_fitsChunkPorts g) ht'
  | encs => exact completeBuffer_shows h
  | decs => exact completeBuffer_shows h
  | encp => exact completeBuffer_shows (res := .ok _) h
  | decp => exact completeBuffer_shows h
  | vals => exact execVals_shows h
  | decus => exact completeBuffer_shows ((execDecus_eq_completeBuffer hpre).symm.trans h)

theorem exec_istail {i : Instr} {s t : State} (h : exec i s = .next t) : (reading i t.out).istail = istailOf i := by
  cases i with
  | tdet g =>
    obtain rfl := complete_next.mp h
    rfl
  | enc | dec | val | decu | tenc | tdec | encs | decs | encp | decp | vals | decus => rfl

theorem exec_diff {i : Instr} {s t : State} (h : exec i s = .next t) : (reading i t.out).diff = diffOf i := by
  cases i with
  | tdet g =>
    obtain rfl := complete_next.mp h
    exact congrArg some (toNat_ofNat_sentinelCount g)
  | tdec g =>
    obtain ⟨t', -, hout⟩ := execTdec_next h
    simpa [reading, diffOf, hout] using toNat_ofNat_sentinelCount g
  | enc | dec | val | decu | tenc | encs | decs | encp | decp | vals | decus => rfl

/-- Whatever the state, an operation that completes leaves at its ports what `readingOf` says of its inputs. -/
theorem exec_reading {i : Instr} {s t : State} (hpre : preconditionHolds i s.inp.ibuf) (h : exec i s = .next t) :
    reading i t.out = readingOf i s.inp.ibuf := by
  obtain ⟨herror, hbytes⟩ := exec_shows hpre h
  have histail := exec_istail h
  have hdiff := exec_diff h
  unfold readingOf
  rw [← herror, ← hbytes, ← histail, ← hdiff]
  rfl

end Sys2Proof.Machine
end

section
/-! PROOF of `ResultDependsOnInputsAlone`: after either run the ports read as `readingOf` says, and for a chunk
operation neither `readingOf` nor the precondition looks at the buffer. -/

namespace Sys2Proof.Machine

theorem readingOf_congr {i : Instr} {buf buf' : List Byte} (h : formatOf i = .sequencer → buf = buf') :
    readingOf i buf = readingOf i buf' := by
  cases i with
  | enc | dec | val | decu | tdet | tenc | tdec => rfl
  | encs | decs | encp | decp | vals | decus => rw [h rfl]

theorem preconditionHolds_congr {i : Instr} {buf buf' : List Byte} (h : formatOf i = .sequencer → buf = buf') :
    preconditionHolds i buf ↔ preconditionHolds i buf' := by
  cases i with
  | enc | dec | val | decu | tdet | tenc | tdec => rfl
  | encs | decs | encp | decp | vals | decus => rw [h rfl]

/-- Settles O48: both runs read as the one function `readingOf` of operands and buffer (R13, R19). -/
theorem resultDependsOnInputsAlone : Obligations.ResultDependsOnInputsAlone := by
  intro i s s' t t' hpre hbuf hexec hexec'
  calc reading i t.out
    _ = readingOf i s.inp.ibuf := exec_reading hpre hexec
    _ = readingOf i s'.inp.ibuf := readingOf_congr hbuf
    _ = reading i t'.out := (exec_reading ((preconditionHolds_congr hbuf).mp hpre) hexec').symm

end Sys2Proof.Machine
end

section
/-! PROOF of `TablesAreInverse`: the 85 entries of `ALPHA` and the 93 of `INV` are compared entry by entry, and what
`inv` answers on any byte is one entry of `INV`. -/

namespace Sys2Proof.Machine

/-- `inv` answers the entry of `INV` at the byte's place in the range, where the table maps it (R16). -/
theorem inv_eq_some_iff {c : Byte} {d : Nat} :
    inv c = some d ↔ CH_LO ≤ c.toNat ∧ c.toNat ≤ CH_HI ∧ invTable.getD (c.toNat - CH_LO) INV_BAD ≠ INV_BAD ∧
      (invTable.getD (c.toNat - CH_LO) INV_BAD).toNat = d := by
  by_cases hrange : c.toNat < CH_LO ∨ CH_HI < c.toNat
  · have hnone : inv c = none := if_pos hrange
    rw [hnone]
    exact ⟨nofun, fun ⟨hlo, hhi, _⟩ => by omega⟩
  · obtain ⟨hlo, hhi⟩ : CH_LO ≤ c.toNat ∧ c.toNat ≤ CH_HI := by omega
    simp [inv, hrange, hlo, hhi]

theorem inv_alpha {d : Nat} (h : d < RADIX) : inv (alpha d) = some d := by
  revert d
  decide

/-- Every mapped entry of `INV` is the digit whose character stands at that place of the range (R17). -/
theorem alpha_invTable {k : Nat} (hk : k ≤ CH_HI - CH_LO) (h : invTable.getD k INV_BAD ≠ INV_BAD) :
    (invTable.getD k INV_BAD).toNat < RADIX ∧
      alpha (invTable.getD k INV_BAD).toNat = BitVec.ofNat 8 (k + CH_LO) := by
  revert k
  decide

theorem alpha_of_inv {c : Byte} {d : Nat} (h : inv c = some d) : d < RADIX ∧ alpha d = c := by
  obtain ⟨hlo, hhi, hmapped, rfl⟩ := inv_eq_some_iff.mp h
  obtain ⟨hd, hc⟩ := alpha_invTable (Nat.sub_le_sub_right hhi CH_LO) hmapped
  refine ⟨hd, hc.trans ?_⟩
  rw [Nat.sub_add_cancel hlo, BitVec.ofNat_toNat, BitVec.setWidth_eq]

/-- Settles O1: the tables are inverse entry by entry, and the valid and invalid bytes are counted. -/
theorem tablesAreInverse : Obligations.TablesAreInverse :=
  ⟨fun _ => inv_alpha, fun _ _ => alpha_of_inv, by decide, by decide⟩

end Sys2Proof.Machine
end

section
/-! PROOF of `BytesAreBigEndian`: four bytes are the base-256 digits of their value, and a read of a buffer is its bytes
from the offset on. -/

namespace Sys2Proof.Machine

/-! ### The value of a chunk (R31) -/

theorem be32_le_MAX32 (c : Byte4) : be32 c ≤ MAX32 := by
  have := c.b0.isLt
  have := c.b1.isLt
  have := c.b2.isLt
  have := c.b3.isLt
  simp only [be32, MAX32]
  omega

theorem be32_eq_bigEndian (c : Byte4) : be32 c = bigEndian (bytes4 c) := by
  simp only [be32, bigEndian, bytes4, List.foldl_cons, List.foldl_nil]
  omega

/-- Each byte is its own base-256 digit of the value. -/
@[simp] theorem bytesBe32_be32 (c : Byte4) : bytesBe32 (be32 c) = c := by
  obtain ⟨b0, b1, b2, b3⟩ := c
  have := b0.isLt
  have := b1.isLt
  have := b2.isLt
  have := b3.isLt
  simp only [bytesBe32, be32, Byte4.mk.injEq, ← BitVec.toNat_inj, BitVec.toNat_ofNat]
  omega

theorem be32_bytesBe32 {n : Nat} (h : n ≤ MAX32) : be32 (bytesBe32 n) = n := by
  simp only [MAX32] at h
  simp only [be32, bytesBe32, BitVec.toNat_ofNat]
  omega

/-! ### Reading a buffer (R11) -/

theorem getElem?_memRead (buf : List Byte) (off : Nat) {n j : Nat} (h : j < n) :
    (memRead buf off n)[j]? = buf[off + j]? := by
  rw [memRead, List.getElem?_take_of_lt h, List.getElem?_drop]

/-- Settles O4: the four bytes are base-256 digits, and chunk and group are reads of the buffer. -/
theorem bytesAreBigEndian : Obligations.BytesAreBigEndian := by
  refine ⟨fun c => ⟨be32_le_MAX32 c, be32_eq_bigEndian c, bytesBe32_be32 c⟩, fun _ => be32_bytesBe32, ?_, ?_⟩
  · intro buf off hoff j hj
    rw [bytes4_chunkAt hoff, getElem?_memRead buf off hj]
  · intro buf off hoff j hj
    rw [bytes5_groupAt hoff, getElem?_memRead buf off hj]

end Sys2Proof.Machine
end

section
/-! SUPPORT. Buffers put together from pieces: what is read of an appended buffer, and where the piece of each chunk or
group stands in the result of a loop. -/

namespace Sys2Proof.Machine

/-! ### Reading an appended buffer -/

theorem memRead_append_left {buf : List Byte} {off n : Nat} (h : off + n ≤ buf.length) (buf' : List Byte) :
    memRead (buf ++ buf') off n = memRead buf off n := by
  have hdrop : n ≤ (buf.drop off).length := by rw [List.length_drop]; omega
  rw [memRead, memRead, List.drop_append_of_le_length (by omega), List.take_append_of_le_length hdrop]

theorem memRead_append_right (buf buf' : List Byte) (off n : Nat) :
    memRead (buf ++ buf') (buf.length + off) n = memRead buf' off n := by
  rw [memRead, memRead, List.drop_length_add_append]

theorem memRead_length_append (buf buf' : List Byte) : memRead (buf ++ buf') 0 buf.length = buf :=
  List.take_left

/-- Behind a piece of `n` bytes the other pieces of that size are read one index further on. -/
theorem memRead_piece_succ {piece : List Byte} {n : Nat} (h : piece.length = n) (buf : List Byte) (i : Nat) :
    memRead (piece ++ buf) (n * (i + 1)) n = memRead buf (n * i) n := by
  rw [Nat.mul_succ, Nat.add_comm, ← h, memRead_append_right]

theorem chunkAt_congr {buf buf' : List Byte} {off off' : Nat} (h : memRead buf off 4 = memRead buf' off' 4) :
    chunkAt buf off = chunkAt buf' off' :=
  congrArg toByte4 h

theorem groupAt_congr {buf buf' : List Byte} {off off' : Nat} (h : memRead buf off 5 = memRead buf' off' 5) :
    groupAt buf off = groupAt buf' off' :=
  congrArg toByte5 h

theorem groupAt_append_left {buf : List Byte} {off : Nat} (h : off + 5 ≤ buf.length) (buf' : List Byte) :
    groupAt (buf ++ buf') off = groupAt buf off :=
  groupAt_congr (memRead_append_left h buf')

theorem groupAt_append_right (buf buf' : List Byte) (off : Nat) :
    groupAt (buf ++ buf') (buf.length + off) = groupAt buf' off :=
  groupAt_congr (memRead_append_right buf buf' off 5)

/-! ### The pieces of a loop's result -/

/-- The characters of chunk `i` stand at `5 * i` (R99). -/
theorem memRead_encodeChunks (buf : List Byte) {k i : Nat} (ci : Nat) (h : i < k) :
    memRead (encodeChunks buf k ci) (5 * i) 5 = bytes5 (encodeChunk (chunkAt buf (4 * (ci + i)))) := by
  induction k generalizing ci i with
  | zero => omega
  | succ k ih =>
    cases i with
    | zero => exact memRead_length_append (bytes5 _) _
    | succ i =>
      have hindex : ci + 1 + i = ci + (i + 1) := by omega
      rw [encodeChunks, memRead_piece_succ (bytes5_length _), ih (ci + 1) (by omega), hindex]

theorem decodeGroups_succ_ok {buf : List Byte} {k ci : Nat} {l : List Byte} :
    decodeGroups buf (k + 1) ci = .ok l ↔
      ∃ l₀ ls, decodeChunk (groupAt buf (5 * ci)) = .ok l₀ ∧ decodeGroups buf k (ci + 1) = .ok ls ∧ l₀ ++ ls = l := by
  cases hd : decodeChunk (groupAt buf (5 * ci)) with
  | error e => simp [decodeGroups, hd]
  | ok l₀ => cases hs : decodeGroups buf k (ci + 1) <;> simp [decodeGroups, hd, hs]

/-- The bytes of group `i` stand at `4 * i` (R100). -/
theorem decodeChunk_eq_memRead {buf : List Byte} {k ci i : Nat} {l : List Byte} (hl : decodeGroups buf k ci = .ok l)
    (h : i < k) : decodeChunk (groupAt buf (5 * (ci + i))) = .ok (memRead l (4 * i) 4) := by
  induction k generalizing ci i l with
  | zero => omega
  | succ k ih =>
    obtain ⟨l₀, ls, hd, hs, rfl⟩ := decodeGroups_succ_ok.mp hl
    have hlen := decodeChunk_ok_length hd
    cases i with
    | zero => exact hd.trans (congrArg _ (hlen ▸ memRead_length_append l₀ ls).symm)
    | succ i =>
      have hindex : ci + 1 + i = ci + (i + 1) := by omega
      rw [memRead_piece_succ hlen, ← ih hs (by omega), hindex]

/-! ### The strict operations by the length of the buffer -/

theorem encodeStrict_of_whole_chunks {buf : List Byte} (h : buf.length % 4 = 0) :
    encodeStrict buf = .ok (encodeChunks buf (buf.length / 4) 0) :=
  if_neg (not_not_intro h)

theorem decodeStrict_of_whole_groups {buf : List Byte} (h : buf.length % 5 = 0) :
    decodeStrict buf = decodeGroups buf (buf.length / 5) 0 :=
  if_neg (not_not_intro h)

theorem decodeStrict_of_cut_group {buf : List Byte} (h : buf.length % 5 ≠ 0) :
    decodeStrict buf = .error (.invalidLength buf.length) :=
  if_pos h

theorem length_mod_of_decodeStrict_ok {buf l : List Byte} (h : decodeStrict buf = .ok l) : buf.length % 5 = 0 := by
  by_contra hlen
  rw [decodeStrict_of_cut_group hlen] at h
  cases h

/-! ### Ports and results of the strict operations -/

theorem completeBuffer_ok {s t : State} {res : Except Error (List Byte)} (h : completeBuffer s res = .next t)
    (hst : t.out.st = .ok) : res = .ok t.out.obuf := by
  obtain ⟨l, rfl, rfl⟩ | ⟨e, -, rfl⟩ := completeBuffer_next.mp h
  · rfl
  · exact absurd ((raise_st _ _ _).symm.trans hst) (errorStatus_ne_ok e)

theorem completeBuffer_error {s t : State} {res : Except Error (List Byte)} (h : completeBuffer s res = .next t)
    (hst : t.out.st ≠ .ok) : ∃ e, res = .error e ∧ t.out = raise .sequencer e s.draws := by
  obtain ⟨l, -, rfl⟩ | ⟨e, rfl, rfl⟩ := completeBuffer_next.mp h
  · exact absurd (deliverBuffer_st _ _) hst
  · exact ⟨e, rfl, rfl⟩

theorem encs_obuf {s t : State} (hlen : s.inp.ibuf.length % 4 = 0) (h : exec .encs s = .next t) :
    t.out.obuf = encodeChunks s.inp.ibuf (s.inp.ibuf.length / 4) 0 := by
  have hcomplete : completeBuffer s (encodeStrict s.inp.ibuf) = .next t := h
  rw [encodeStrict_of_whole_chunks hlen] at hcomplete
  rw [complete_next.mp hcomplete, deliverBuffer_obuf]

theorem decs_decodeStrict {s t : State} (h : exec .decs s = .next t) (hst : t.out.st = .ok) :
    decodeStrict s.inp.ibuf = .ok t.out.obuf :=
  completeBuffer_ok h hst

/-! ### Decoding an appended text -/

theorem Error.rebase_rebase (a b : Nat) (e : Error) : (e.rebase a).rebase b = e.rebase (b + a) := by
  cases e <;> simp [Error.rebase, Nat.add_assoc]

theorem decodeGroups_append_left {buf : List Byte} {k ci : Nat} (h : 5 * (ci + k) ≤ buf.length) (buf' : List Byte) :
    decodeGroups (buf ++ buf') k ci = decodeGroups buf k ci := by
  induction k generalizing ci with
  | zero => rfl
  | succ k ih => rw [decodeGroups, decodeGroups, groupAt_append_left (by omega), ih (by omega)]

/-- Behind `n` groups a text decodes as it does alone, its errors that much further on (R98). -/
theorem decodeGroups_append_right {buf : List Byte} {n : Nat} (hn : buf.length = 5 * n) (buf' : List Byte)
    (k ci : Nat) :
    decodeGroups (buf ++ buf') k (n + ci) = (decodeGroups buf' k ci).mapError (Error.rebase buf.length) := by
  induction k generalizing ci with
  | zero => rfl
  | succ k ih =>
    have hgroup : groupAt (buf ++ buf') (5 * (n + ci)) = groupAt buf' (5 * ci) := by
      rw [Nat.mul_add, ← hn, groupAt_append_right]
    rw [decodeGroups, decodeGroups, hgroup, Nat.add_assoc, ih]
    cases decodeChunk (groupAt buf' (5 * ci)) with
    | error e => simp [Except.mapError, Error.rebase_rebase, Nat.mul_add, hn]
    | ok l => cases decodeGroups buf' k (ci + 1) <;> rfl

/-- A loop over `k + m` groups is the loop over the first `k`, then the loop over the other `m` (R45). -/
theorem decodeGroups_add (buf : List Byte) (k m ci : Nat) :
    decodeGroups buf (k + m) ci =
      (decodeGroups buf k ci).bind fun l => (decodeGroups buf m (ci + k)).map (l ++ ·) := by
  induction k generalizing ci with
  | zero => cases hm : decodeGroups buf m ci <;> simp [decodeGroups, hm, Except.bind, Except.map]
  | succ k ih =>
    have hindex : ci + (k + 1) = ci + 1 + k := by omega
    rw [Nat.add_right_comm, decodeGroups, decodeGroups, ih, hindex]
    cases decodeChunk (groupAt buf (5 * ci)) with
    | error e => rfl
    | ok l =>
      cases decodeGroups buf k (ci + 1) with
      | error e => rfl
      | ok ls => cases decodeGroups buf m (ci + 1 + k) <;> simp [Except.bind, Except.map]

/-- `DECS` of two texts of whole groups joined: the first error of the first, else that of the second, rebased, else the
two results one after the other (R45, R98, R108). -/
theorem decodeStrict_append {b b' : List Byte} (hb : b.length % 5 = 0) (hb' : b'.length % 5 = 0) :
    decodeStrict (b ++ b') =
      (decodeStrict b).bind fun l => ((decodeStrict b').mapError (Error.rebase b.length)).map (l ++ ·) := by
  have hlen : (b ++ b').length % 5 = 0 := by rw [List.length_append]; omega
  have hdiv : (b ++ b').length / 5 = b.length / 5 + b'.length / 5 := by rw [List.length_append]; omega
  rw [decodeStrict_of_whole_groups hlen, decodeStrict_of_whole_groups hb, decodeStrict_of_whole_groups hb',
    hdiv, decodeGroups_add, decodeGroups_append_left (by omega), Nat.add_comm 0, decodeGroups_append_right (by omega)]

end Sys2Proof.Machine
end

section
/-! PROOF of `ChunksAreIndependent`: the piece of a chunk in the result is a function of the chunk, and a chunk is a
function of its bytes in the buffer. -/

namespace Sys2Proof.Machine

theorem encs_memRead {s t : State} {ci : Nat} (hlen : s.inp.ibuf.length % 4 = 0)
    (hci : 4 * ci + 4 ≤ s.inp.ibuf.length) (h : exec .encs s = .next t) :
    memRead t.out.obuf (5 * ci) 5 = bytes5 (encodeChunk (chunkAt s.inp.ibuf (4 * ci))) := by
  rw [encs_obuf hlen h, memRead_encodeChunks _ _ (by omega), Nat.zero_add]

theorem decs_memRead {s t : State} {ci : Nat} (hci : 5 * ci + 5 ≤ s.inp.ibuf.length) (h : exec .decs s = .next t)
    (hst : t.out.st = .ok) : decodeChunk (groupAt s.inp.ibuf (5 * ci)) = .ok (memRead t.out.obuf (4 * ci) 4) := by
  have hdec := decs_decodeStrict h hst
  rw [decodeStrict_of_whole_groups (length_mod_of_decodeStrict_ok hdec)] at hdec
  rw [← decodeChunk_eq_memRead hdec (by omega), Nat.zero_add]

/-- Settles O43: the piece of a result is `ENC` or `DEC` of the bytes that the two buffers share. -/
theorem chunksAreIndependent : Obligations.ChunksAreIndependent := by
  refine ⟨?_, ?_⟩
  · intro b b' s t t' ci hlen hlen' hci hci' hread hexec hexec'
    rw [encs_memRead hlen hci hexec, encs_memRead hlen' hci' hexec', onBuffer_ibuf, onBuffer_ibuf, chunkAt_congr hread]
  · intro b b' s t t' ci hci hci' hread hexec hst hexec' hst'
    have hdec := decs_memRead hci hexec hst
    have hdec' := decs_memRead hci' hexec' hst'
    rw [onBuffer_ibuf, groupAt_congr hread] at hdec
    exact Except.ok.inj (hdec.symm.trans hdec')

end Sys2Proof.Machine
end

section
/-! PROOF of `LeftmostErrorWins`: `decodeStrict_append` says what `DECS` answers on the joined text. -/

namespace Sys2Proof.Machine

/-- Settles O44: the joined text decodes as its pieces do, the first one first. -/
theorem leftmostErrorWins : Obligations.LeftmostErrorWins := by
  intro b b' s t hb hb' hexec
  have happend := decodeStrict_append hb hb'
  refine ⟨fun hst => ?_, fun hst t' hexec' hst' => ?_⟩
  · obtain ⟨e, hdec, hout⟩ := completeBuffer_error hexec hst
    rw [onBuffer_ibuf] at hdec
    rw [hdec] at happend
    rw [hout]
    exact completes_of_eq (congrArg (completeBuffer _) happend) rfl
  · have hdec : decodeStrict b = .ok t.out.obuf := decs_decodeStrict hexec hst
    have hdec' : decodeStrict b' = .ok t'.out.obuf := decs_decodeStrict hexec' hst'
    rw [hdec, hdec'] at happend
    exact completes_of_eq (congrArg (completeBuffer _) happend) ⟨rfl, rfl⟩

end Sys2Proof.Machine
end

section
/-! SUPPORT. The decoder by cases, said once: which words it refuses, what a decoded word has in common with its
operation (R59 to R62), and which fields of a word it reads (R61). -/

namespace Sys2Proof

open Machine

/-! ### Operations and their words -/

theorem tailWellFormed_iff {tail : List Byte} : tailWellFormed tail = true ↔ IsTail tail := by
  simp [tailWellFormed, tailNotEmpty, tailBelowChunk, IsTail]

theorem opcode_not_reserved (i : Instr) : i.opcode ∉ [0x7, 0xE, 0xF] := by
  cases i <;> simp [Instr.opcode]

theorem op_encode (i : Instr) : Req.op (encode i) = i.opcode := by
  cases i with
  | enc c => exact Laws.RowOfTable.enc c
  | dec g => exact Laws.RowOfTable.dec g
  | val g => exact Laws.RowOfTable.val g
  | decu g => exact Laws.RowOfTable.decu g
  | tdet g => exact Laws.RowOfTable.tdet g
  | tenc tail => exact Laws.RowOfTable.tenc tail
  | tdec g => exact Laws.RowOfTable.tdec g
  | encs => exact Laws.RowOfTable.encs
  | decs => exact Laws.RowOfTable.decs
  | encp => exact Laws.RowOfTable.encp
  | decp => exact Laws.RowOfTable.decp
  | vals => exact Laws.RowOfTable.vals
  | decus => exact Laws.RowOfTable.decus

/-- Every well-formed operation is read back from its word. -/
theorem decode_encode {i : Instr} (h : i.wellFormed = true) : decode (encode i) = .ok i := by
  cases i with
  | tenc tail =>
    obtain ⟨hlo, hhi⟩ : IsTail tail := tailWellFormed_iff.mp h
    match tail, hlo, hhi with
    | [_], _, _ => simp [encode, decode, decodeTenc, Instr.opcode]
    | [_, _], _, _ => simp [encode, decode, decodeTenc, Instr.opcode]
    | [_, _, _], _, _ => simp [encode, decode, decodeTenc, Instr.opcode]
  | enc | dec | val | decu | tdet | tdec | encs | decs | encp | decp | vals | decus =>
    simp [encode, decode, Instr.opcode]

/-! ### Words and their operations -/

/-- `TENC`'s operand is the first `TLEN` bytes of `DIN`; a `TLEN` outside 1 to 3 is refused (R61, R62). -/
theorem decodeTenc_eq (tlen : BitVec 3) (din : Byte5) :
    decodeTenc tlen din =
      if tlen.toNat ∈ [1, 2, 3] then .ok (.tenc ((bytes5 din).take tlen.toNat))
      else .error (.illegalTailLength tlen) := by
  unfold decodeTenc
  split
  case h_4 h1 h2 h3 => exact (if_neg (by simpa using ⟨h1, h2, h3⟩)).symm
  all_goals
    rename_i h
    rw [if_pos (by simp [h]), h]
    rfl

/-- What a word decodes to: a reserved word is refused by name, any other is a well-formed operation of its row. -/
theorem decode_cases (w : Req) :
    (Req.op w ∈ [0x7, 0xE, 0xF] ∧ decode w = .error (.reservedOp (Req.op w))) ∨
    (Req.op w = 0x5 ∧ (Req.tlen w).toNat ∉ [1, 2, 3] ∧ decode w = .error (.illegalTailLength (Req.tlen w))) ∨
    ((Req.op w = 0x5 → (Req.tlen w).toNat ∈ [1, 2, 3]) ∧
      ∃ i, decode w = .ok i ∧ i.wellFormed = true ∧ i.opcode = Req.op w) := by
  unfold decode
  split
  case h_6 hop => -- `TENC`
    have hop : Req.op w = 0x5 := BitVec.eq_of_toNat_eq hop
    by_cases hlen : (Req.tlen w).toNat ∈ [1, 2, 3]
    · have hdec : decodeTenc (Req.tlen w) (Req.din w) = .ok _ := (decodeTenc_eq _ _).trans (if_pos hlen)
      refine .inr (.inr ⟨fun _ => hlen, _, hdec, tailWellFormed_iff.mpr ?_, hop.symm⟩)
      simp only [List.mem_cons, List.not_mem_nil, or_false] at hlen
      simp only [IsTail, List.length_take, bytes5_length]
      omega
    · exact .inr (.inl ⟨hop, hlen, (decodeTenc_eq _ _).trans (if_neg hlen)⟩)
  case h_14 => -- no row
    -- Thirteen of the sixteen codes are excluded here, the three reserved ones are left.
    refine .inl ⟨?_, rfl⟩
    have := (Req.op w).isLt
    simp only [List.mem_cons, List.not_mem_nil, or_false, BitVec.ofNat_eq_ofNat, ← BitVec.toNat_inj,
      BitVec.toNat_ofNat]
    grind
  all_goals
    rename_i hop
    refine .inr (.inr ⟨fun h5 => ?_, _, rfl, rfl, BitVec.eq_of_toNat_eq hop.symm⟩)
    simp [h5] at hop

/-- The fields of a word that the decoder reads (R61): `OP`, the operand bytes of `ENC`, the length and that many bytes
of `TENC`, `DIN` of any other chunk operation. -/
theorem decode_congr {w w' : Req} (hop : Req.op w = Req.op w')
    (henc : Req.op w = 0x0 → (bytes5 (Req.din w)).take 4 = (bytes5 (Req.din w')).take 4)
    (htenc : Req.op w = 0x5 → Req.tlen w = Req.tlen w' ∧
      (bytes5 (Req.din w)).take (Req.tlen w).toNat = (bytes5 (Req.din w')).take (Req.tlen w).toNat)
    (hgroup : (Req.op w).toNat ∈ [1, 2, 3, 4, 6] → Req.din w = Req.din w') :
    decode w = decode w' := by
  unfold decode
  rw [← hop]
  split
  case h_1 h => -- `ENC`
    have henc := henc (BitVec.eq_of_toNat_eq h)
    simp only [bytes5, List.take_succ_cons, List.take_zero, List.cons.injEq, and_true] at henc
    simp [henc]
  case h_6 h => -- `TENC`
    obtain ⟨hlen, hbytes⟩ := htenc (BitVec.eq_of_toNat_eq h)
    rw [decodeTenc_eq, decodeTenc_eq, hbytes, hlen]
  case h_2 h | h_3 h | h_4 h | h_5 h | h_7 h => rw [hgroup (by simp [h])]
  all_goals rfl

end Sys2Proof
end

section
/-! PROOF of `DecodeOfEncode`, `DecodedRequestMatchesItsRow` and `IgnoredFieldsHaveNoEffect`, from the decoder's cases
and from the fields it reads. -/

namespace Sys2Proof

/-- The mask of R60 keeps `OP` and nothing else. -/
theorem and_opMask (w : Req) : w &&& 0x780000000000#47 = (Req.op w).setWidth 47 <<< 43 := by
  have hmask : ∀ i (hi : i < 47), (0x780000000000#47)[i] = decide (43 ≤ i) := by decide
  ext i hi
  rw [BitVec.getElem_and, hmask i hi]
  by_cases h : i < 43
  · simp [h]
  · have hi4 : i - 43 < 4 := by omega
    have hi43 : 43 + (i - 43) = i := by omega
    simp [Req.op, h, hi4, hi43, hi, not_lt.mp h]

/-- Settles O5: the fields of the word are read back as they were packed, row by row (`decode_encode`). -/
theorem decodeOfEncode : Obligations.DecodeOfEncode := fun _ => decode_encode

/-- Settles O6: a decoded operation has the select code of its word, and the mask keeps just that field. -/
theorem decodedRequestMatchesItsRow : Obligations.DecodedRequestMatchesItsRow := by
  intro w i h
  obtain ⟨-, he⟩ | ⟨-, -, he⟩ | ⟨-, j, hj, hwf, hop⟩ := decode_cases w
  · cases h.symm.trans he
  · cases h.symm.trans he
  · obtain rfl : i = j := Except.ok.inj (h.symm.trans hj)
    exact ⟨hwf, by rw [and_opMask, hop], by rw [and_opMask, and_opMask, op_encode, hop]⟩

/-- Settles O7: each clause gives `decode_congr` the fields its operations read. -/
theorem ignoredFieldsHaveNoEffect : Obligations.IgnoredFieldsHaveNoEffect := by
  intro w w' hop
  refine ⟨fun h0 hbytes => ?_, fun h5 hlen hbytes => ?_, fun _ h5 hdin => ?_, fun h8 => ?_⟩
  · exact decode_congr hop (fun _ => hbytes) (by simp [h0]) (by simp [h0])
  · exact decode_congr hop (by simp [h5]) (fun _ => ⟨hlen, hbytes⟩) (by simp [h5])
  · exact decode_congr hop (fun _ => by rw [hdin]) (fun h => absurd h h5) fun _ => hdin
  · refine decode_congr hop (fun h => ?_) (fun h => ?_) fun h => ?_
    · simp [h] at h8
    · simp [h] at h8
    · simp only [List.mem_cons, List.not_mem_nil, or_false] at h
      omega

end Sys2Proof
end

section
/-! SUPPORT. The end of every transaction: a well-formed operation completes, and a step is the operation its word
decodes to or the refusal of its word. -/

namespace Sys2Proof.Machine

theorem completeChunk_eq_complete (s : State) (res : Except Error (List Byte)) :
    ∃ o, completeChunk s res = complete s o := by
  cases res with
  | ok l => exact ⟨_, rfl⟩
  | error e => exact ⟨_, rfl⟩

theorem completeBuffer_eq_complete (s : State) (res : Except Error (List Byte)) :
    ∃ o, completeBuffer s res = complete s o := by
  cases res with
  | ok l => exact ⟨_, rfl⟩
  | error e => exact ⟨_, rfl⟩

/-- A well-formed operation ends its transaction with some output ports: no path faults or is refused (R121). -/
theorem exec_eq_complete {i : Instr} (h : i.wellFormed = true) (s : State) : ∃ o, exec i s = complete s o := by
  cases i with
  | enc c => exact ⟨_, rfl⟩
  | dec g => exact completeChunk_eq_complete s _
  | val g =>
    obtain ⟨o, ho⟩ := completeChunk_eq_complete s ((decodeChunk g).map fun _ => [])
    exact ⟨o, (execVal_eq_completeChunk g s).trans ho⟩
  | decu g => exact ⟨_, rfl⟩
  | tdet g => exact ⟨_, rfl⟩
  | tenc l => exact ⟨_, if_pos h⟩
  | tdec g =>
    cases hd : decodeTail g with
    | ok l => exact ⟨_, by rw [exec, execTdec, hd]⟩
    | error e => exact ⟨_, by rw [exec, execTdec, hd]⟩
  | encs => exact completeBuffer_eq_complete s _
  | decs => exact completeBuffer_eq_complete s _
  | encp => exact ⟨_, rfl⟩
  | decp => exact completeBuffer_eq_complete s _
  | vals =>
    cases hv : validateStrict s.inp.ibuf with
    | ok => exact ⟨_, by rw [exec, execVals, hv]⟩
    | error e => exact ⟨_, by rw [exec, execVals, hv]⟩
  | decus => exact ⟨_, rfl⟩

theorem step_of_decode_ok {s : State} {t : Inputs} {rest : List Inputs} {i : Instr} (hp : s.pending = t :: rest)
    (h : decode t.req = .ok i) : step s = exec i (s.present t rest) := by
  simp [step, hp, h]

theorem step_of_decode_error {s : State} {t : Inputs} {rest : List Inputs} {e : DecodeError}
    (hp : s.pending = t :: rest) (h : decode t.req = .error e) : step s = .refused (refusalOf e) := by
  simp [step, hp, h]

end Sys2Proof.Machine
end

section
/-! PROOF of `OnlyReservedRequestsAreRefused` and `TencOfIllegalLengthIsRefused`: the words that the decoder refuses are
the reserved ones, and `TENC`'s own test is that of R62. -/

namespace Sys2Proof.Machine

/-- Settles O12: the test of `TENC`'s meaning is `IsTail`. -/
theorem tencOfIllegalLengthIsRefused : Obligations.TencOfIllegalLengthIsRefused :=
  fun _ _ h => if_neg fun hwf => h (tailWellFormed_iff.mp hwf)

/-- Settles O10: `decode_cases` says which words are refused, `exec_eq_complete` what happens to the others. -/
theorem onlyReservedRequestsAreRefused : Obligations.OnlyReservedRequestsAreRefused := by
  intro s t rest hp
  obtain ⟨hop, hdec⟩ | ⟨hop, hlen, hdec⟩ | ⟨hlen, i, hdec, hwf, hi⟩ := decode_cases t.req
  · refine ⟨fun _ => step_of_decode_error hp hdec, fun h5 => ?_, fun h => absurd hop h⟩
    rw [h5] at hop
    exact absurd hop (by decide)
  · refine ⟨fun hres => ?_, fun _ _ => step_of_decode_error hp hdec, fun _ h => absurd (h hop) hlen⟩
    rw [hop] at hres
    exact absurd hres (by decide)
  · refine ⟨fun hres => absurd (hi ▸ hres) (opcode_not_reserved i), fun h5 h => absurd (hlen h5) h, fun _ _ => ?_⟩
    obtain ⟨o, ho⟩ := exec_eq_complete hwf (s.present t rest)
    exact ⟨_, (step_of_decode_ok hp hdec).trans ho, rfl, rfl⟩

end Sys2Proof.Machine
end

section
/-! PROOF of `AlphabetOrder` and `InvalidByteClasses`: the entries of the two tables are compared one by one, and
`inv_eq_none_iff` carries the unmapped entries of `INV` over to the bytes. -/

namespace Sys2Proof.Machine

theorem alpha_toNat_range {d : Nat} (h : d < 85) : 0x21 ≤ (alpha d).toNat ∧ (alpha d).toNat ≤ 0x7D := by
  revert d
  decide

/-- Settles O2: the entries of `ALPHA`, class by class. -/
theorem alphabetOrder : Obligations.AlphabetOrder :=
  ⟨rfl, by decide, fun _ => alpha_toNat_range, by decide, by decide, by decide, rfl, rfl⟩

/-- The eight unmapped entries of `INV` (R54). -/
theorem invTable_eq_INV_BAD_iff {k : Nat} (h : k ≤ CH_HI - CH_LO) :
    invTable.getD k INV_BAD = INV_BAD ↔ k + CH_LO ∈ [0x22, 0x27, 0x2C, 0x3B, 0x5C, 0x5F, 0x60, 0x7C] := by
  revert k
  decide

theorem inv_eq_none_iff {c : Byte} :
    inv c = none ↔ c.toNat < CH_LO ∨ CH_HI < c.toNat ∨ invTable.getD (c.toNat - CH_LO) INV_BAD = INV_BAD := by
  by_cases hrange : c.toNat < CH_LO ∨ CH_HI < c.toNat
  · exact iff_of_true (if_pos hrange) (or_assoc.mp (.inl hrange))
  · simp [inv, hrange, ← or_assoc]

/-- Settles O3: outside the range `inv` looks at no table, inside it the eight unmapped entries of `INV` decide. -/
theorem invalidByteClasses : Obligations.InvalidByteClasses := by
  intro c
  have hlo : c.toNat < CH_LO ↔ c.toNat ≤ 0x20 := Nat.lt_add_one_iff
  have hhi : CH_HI < c.toNat ↔ 0x7E ≤ c.toNat := Nat.lt_iff_add_one_le
  rw [inv_eq_none_iff, ← hlo, ← hhi]
  by_cases hrange : c.toNat < CH_LO ∨ CH_HI < c.toNat
  · exact iff_of_true (or_assoc.mp (.inl hrange)) (or_assoc.mp (.inl hrange))
  · obtain ⟨hle, hge⟩ : CH_LO ≤ c.toNat ∧ c.toNat ≤ CH_HI := by simpa using hrange
    rw [invTable_eq_INV_BAD_iff (Nat.sub_le_sub_right hge CH_LO), Nat.sub_add_cancel hle]

end Sys2Proof.Machine
end

section
/-! SUPPORT. The encoder undoes the decoder on everything that the decoder accepts: on a group, on a loop's groups, on
a tail group (R64, R109). -/

namespace Sys2Proof.Machine

/-! ### One group -/

/-- The repeated division of `ENC` gives back the digits of a value (R67). -/
theorem encodeValue_digitSum {d0 d1 d2 d3 d4 : Nat} (h0 : d0 < RADIX) (h1 : d1 < RADIX) (h2 : d2 < RADIX)
    (h3 : d3 < RADIX) (h4 : d4 < RADIX) :
    encodeValue (digitSum d0 d1 d2 d3 d4) = ⟨alpha d0, alpha d1, alpha d2, alpha d3, alpha d4⟩ := by
  simp only [RADIX] at h0 h1 h2 h3 h4
  have hhorner : digitSum d0 d1 d2 d3 d4 = (((d0 * 85 + d1) * 85 + d2) * 85 + d3) * 85 + d4 := by
    rw [digitSum]
    omega
  have hdiv : ∀ a d, d < 85 → (a * 85 + d) / 85 = a := by omega
  simp only [encodeValue, RADIX, hhorner, hdiv, Nat.mul_add_mod_of_lt, Nat.mod_eq_of_lt, h0, h1, h2, h3, h4]

/-- The characters of the value of a group are the group: an accepted group is canonical (R64). -/
theorem encodeValue_of_chunkValue_ok {g : Byte5} {n : Nat} (h : chunkValue g = .ok n) :
    n ≤ MAX32 ∧ encodeValue n = g := by
  obtain ⟨i, c, -, -, hv⟩ | ⟨d0, d1, d2, d3, d4, ⟨hd0, hd1, hd2, hd3, hd4⟩, ⟨-, hv⟩ | ⟨hle, hv⟩⟩ := chunkValue_cases g
  · cases h.symm.trans hv
  · cases h.symm.trans hv
  · obtain rfl : n = digitSum d0 d1 d2 d3 d4 := Except.ok.inj (h.symm.trans hv)
    obtain ⟨hlt0, ha0⟩ := alpha_of_inv hd0
    obtain ⟨hlt1, ha1⟩ := alpha_of_inv hd1
    obtain ⟨hlt2, ha2⟩ := alpha_of_inv hd2
    obtain ⟨hlt3, ha3⟩ := alpha_of_inv hd3
    obtain ⟨hlt4, ha4⟩ := alpha_of_inv hd4
    refine ⟨hle, ?_⟩
    rw [encodeValue_digitSum hlt0 hlt1 hlt2 hlt3 hlt4, ha0, ha1, ha2, ha3, ha4]

theorem encodeChunk_bytesBe32 {n : Nat} (h : n ≤ MAX32) : encodeChunk (bytesBe32 n) = encodeValue n := by
  rw [encodeChunk, be32_bytesBe32 h]

theorem encodeChunk_of_decodeChunk_ok {g : Byte5} {l : List Byte} (h : decodeChunk g = .ok l) :
    encodeChunk (toByte4 l) = g := by
  cases hv : chunkValue g with
  | error e => cases (decodeChunk_error_iff.mpr hv).symm.trans h
  | ok n =>
    obtain ⟨hle, henc⟩ := encodeValue_of_chunkValue_ok hv
    obtain rfl : bytes4 (bytesBe32 n) = l := by simpa [decodeChunk, hv] using h
    rw [toByte4_bytes4, encodeChunk_bytesBe32 hle, henc]

/-! ### A loop's groups -/

theorem encodeChunks_append_left {buf : List Byte} {k ci : Nat} (h : 4 * (ci + k) ≤ buf.length) (buf' : List Byte) :
    encodeChunks (buf ++ buf') k ci = encodeChunks buf k ci := by
  induction k generalizing ci with
  | zero => rfl
  | succ k ih =>
    have hchunk : chunkAt (buf ++ buf') (4 * ci) = chunkAt buf (4 * ci) :=
      chunkAt_congr (memRead_append_left (by omega) buf')
    rw [encodeChunks, encodeChunks, hchunk, ih (by omega)]

/-- Behind one chunk a buffer encodes as it does alone. -/
theorem encodeChunks_append_right {chunk : List Byte} (h : chunk.length = 4) (buf : List Byte) (k ci : Nat) :
    encodeChunks (chunk ++ buf) k (ci + 1) = encodeChunks buf k ci := by
  induction k generalizing ci with
  | zero => rfl
  | succ k ih => rw [encodeChunks, encodeChunks, chunkAt_congr (memRead_piece_succ h buf ci), ih]

theorem memRead_add (buf : List Byte) (off m n : Nat) :
    memRead buf off (m + n) = memRead buf off m ++ memRead buf (off + m) n := by
  rw [memRead, List.take_add, List.drop_drop, memRead, memRead]

/-- The bytes that a loop decodes encode to the groups they came from. -/
theorem encodeChunks_of_decodeGroups_ok {buf : List Byte} {k ci : Nat} {l : List Byte}
    (hbuf : 5 * (ci + k) ≤ buf.length) (h : decodeGroups buf k ci = .ok l) :
    encodeChunks l k 0 = memRead buf (5 * ci) (5 * k) := by
  induction k generalizing ci l with
  | zero => simp [encodeChunks, memRead]
  | succ k ih =>
    obtain ⟨l₀, ls, hd, hs, rfl⟩ := decodeGroups_succ_ok.mp h
    have hlen := decodeChunk_ok_length hd
    have hfirst : chunkAt (l₀ ++ ls) 0 = toByte4 l₀ := by
      rw [chunkAt, RAW_W, ← hlen, memRead_length_append]
    have hsplit : 5 * (k + 1) = 5 + 5 * k := by omega
    rw [encodeChunks, Nat.mul_zero, hfirst, encodeChunk_of_decodeChunk_ok hd, bytes5_groupAt (by omega),
      encodeChunks_append_right hlen, ih (by omega) hs, hsplit, memRead_add, Nat.mul_succ]

/-! ### A tail group -/

theorem eq_replicate_append_of_sentinelRun (l : List Byte) :
    l = List.replicate (sentinelRun l) SENTINEL ++ l.drop (sentinelRun l) := by
  induction l with
  | nil => rfl
  | cons c cs ih =>
    by_cases hc : c = SENTINEL
    · simpa [sentinelRun, hc, List.replicate_succ] using ih
    · simp [sentinelRun, hc]

/-- Writing the sentinels back over the zero digits of the rewritten copy gives the group again (R92). -/
theorem overwriteFront_rewriteTail (g : Byte5) :
    overwriteFront (List.replicate (sentinelCount g) SENTINEL) (rewriteTail (sentinelCount g) g) = g := by
  have hlen : (List.replicate (sentinelCount g) SENTINEL).length ≤ 5 := by simpa using sentinelCount_le g
  have hlen' : (List.replicate (sentinelCount g) zeroCh).length ≤ 5 := by simpa using sentinelCount_le g
  apply bytes5_injective
  rw [bytes5_overwriteFront hlen, rewriteTail, bytes5_overwriteFront hlen']
  simpa [sentinelCount] using (eq_replicate_append_of_sentinelRun (bytes5 g)).symm

/-- A value below `256^(4-k)` has `k` leading zero bytes (R84). -/
theorem bytes4_bytesBe32_of_lt {n k : Nat} (hk : k ≤ 3) (h : n < 256 ^ (4 - k)) :
    bytes4 (bytesBe32 n) = List.replicate k 0 ++ (bytes4 (bytesBe32 n)).drop k := by
  obtain rfl | rfl | rfl | rfl : k = 0 ∨ k = 1 ∨ k = 2 ∨ k = 3 := by omega
  · rfl
  · have h0 : n / 2 ^ 24 = 0 := by omega
    rw [bytesBe32, h0]
    rfl
  · have h0 : n / 2 ^ 24 = 0 := by omega
    have h1 : n / 2 ^ 16 % 256 = 0 := by omega
    rw [bytesBe32, h0, h1]
    rfl
  · have h0 : n / 2 ^ 24 = 0 := by omega
    have h1 : n / 2 ^ 16 % 256 = 0 := by omega
    have h2 : n / 2 ^ 8 % 256 = 0 := by omega
    rw [bytesBe32, h0, h1, h2]
    rfl

/-- What `TDEC` has found out about a group that it accepts (R92). -/
theorem decodeTail_ok {g : Byte5} {l : List Byte} (h : decodeTail g = .ok l) :
    1 ≤ sentinelCount g ∧ sentinelCount g ≤ 3 ∧
    ∃ n, chunkValue (rewriteTail (sentinelCount g) g) = .ok n ∧ n < 256 ^ (4 - sentinelCount g) ∧
      l = (bytes4 (bytesBe32 n)).drop (sentinelCount g) := by
  by_cases hk : sentinelCount g < DIFF_MIN ∨ DIFF_MAX < sentinelCount g
  · simp [decodeTail, hk] at h
  obtain ⟨hlo, hhi⟩ : DIFF_MIN ≤ sentinelCount g ∧ sentinelCount g ≤ DIFF_MAX := by simpa using hk
  refine ⟨hlo, hhi, ?_⟩
  cases hv : chunkValue (rewriteTail (sentinelCount g) g) with
  | error e => simp [decodeTail, hk, hv] at h
  | ok n =>
    by_cases hn : 256 ^ (4 - sentinelCount g) - 1 < n
    · simp [decodeTail, hk, hv, hn] at h
    · have hpos : 0 < 256 ^ (4 - sentinelCount g) := by positivity
      exact ⟨n, rfl, by omega, by simpa [decodeTail, hk, hv, hn] using h.symm⟩

/-- A tail group that `TDEC` accepts is canonical (R64). -/
theorem encodeTail_of_decodeTail_ok {g : Byte5} {l : List Byte} (h : decodeTail g = .ok l) : encodeTail l = g := by
  obtain ⟨hlo, hhi, n, hv, hn, rfl⟩ := decodeTail_ok h
  obtain ⟨hle, henc⟩ := encodeValue_of_chunkValue_ok hv
  have hdiff : 4 - ((bytes4 (bytesBe32 n)).drop (sentinelCount g)).length = sentinelCount g := by simp; omega
  rw [encodeTail, hdiff, ← bytes4_bytesBe32_of_lt hhi hn, toByte4_bytes4, encodeChunk_bytesBe32 hle, henc,
    overwriteFront_rewriteTail]

/-! ### A whole text -/

theorem encodePadded_of_whole_chunks {buf : List Byte} (h : buf.length % 4 = 0) :
    encodePadded buf = encodeChunks buf (buf.length / 4) 0 :=
  if_neg (not_not_intro h)

/-- Whole chunks with a tail behind them: the tail makes one group of its own (R101). -/
theorem encodePadded_append_tail {buf tail : List Byte} (h : buf.length % 4 = 0) (htail : IsTail tail) :
    encodePadded (buf ++ tail) = encodeChunks buf (buf.length / 4) 0 ++ bytes5 (encodeTail tail) := by
  obtain ⟨hlo, hhi⟩ := htail
  have hmod : (buf ++ tail).length % 4 = tail.length := by rw [List.length_append]; omega
  have hdiv : (buf ++ tail).length / 4 = buf.length / 4 := by rw [List.length_append]; omega
  have hlast : memRead (buf ++ tail) (4 * (buf.length / 4)) tail.length = tail := by
    have hoff : 4 * (buf.length / 4) = buf.length := by omega
    rw [hoff, memRead, List.drop_left, List.take_length]
  simp only [encodePadded, RAW_W, hmod, hdiv, hlast, if_pos (Nat.ne_of_gt hlo)]
  rw [encodeChunks_append_left (by omega)]

/-- The first `k` groups of a text, decoded and encoded again (R109). -/
theorem encodeChunks_of_decodeGroups_front {buf l : List Byte} {k : Nat} (hbuf : 5 * k ≤ buf.length)
    (h : decodeGroups buf k 0 = .ok l) : l.length % 4 = 0 ∧ encodeChunks l (l.length / 4) 0 = buf.take (5 * k) := by
  have hlen := decodeGroups_ok_length h
  have hk : l.length / 4 = k := by omega
  exact ⟨by omega, hk ▸ encodeChunks_of_decodeGroups_ok (by omega) h⟩

/-- What `DECS` accepts is what `ENCS` makes of the result (R109). -/
theorem encodeChunks_of_decodeStrict_ok {buf l : List Byte} (h : decodeStrict buf = .ok l) :
    l.length % 4 = 0 ∧ encodeChunks l (l.length / 4) 0 = buf := by
  have hmod := length_mod_of_decodeStrict_ok h
  rw [decodeStrict_of_whole_groups hmod] at h
  have hfront := encodeChunks_of_decodeGroups_front (by omega) h
  rwa [List.take_of_length_le (by omega)] at hfront

/-- What `DECP` accepts is what `ENCP` makes of the result (R109). -/
theorem encodePadded_of_decodePadded_ok {buf l : List Byte} (h : decodePadded buf = .ok l) :
    encodePadded l = buf := by
  by_cases hstrict : buf.length = 0 ∨ buf.length % ENC_W ≠ 0 ∨ isTail (groupAt buf (buf.length - 5)) = false
  · rw [decodePadded_eq_decodeStrict hstrict] at h
    obtain ⟨hmod, henc⟩ := encodeChunks_of_decodeStrict_ok h
    rw [encodePadded_of_whole_chunks hmod, henc]
  obtain ⟨hn, hm, ht⟩ :
      buf.length ≠ 0 ∧ buf.length % ENC_W = 0 ∧ isTail (groupAt buf (buf.length - 5)) = true := by
    simpa using hstrict
  have hcases := decodePadded_tail_cases hn hm ht
  simp only [ENC_W] at hm hcases
  obtain ⟨e, -, hp⟩ | ⟨body, hd, ⟨e, -, hp⟩ | ⟨tail, hdt, hp⟩⟩ := hcases
  · cases h.symm.trans hp
  · cases h.symm.trans hp
  · obtain rfl : l = body ++ tail := Except.ok.inj (h.symm.trans hp)
    obtain ⟨e, he, -⟩ | ⟨tail', htail', -, htail⟩ := decodeTail_cases (groupAt buf (buf.length - 5))
    · cases hdt.symm.trans he
    obtain rfl : tail = tail' := Except.ok.inj (hdt.symm.trans htail')
    obtain ⟨hmod, henc⟩ := encodeChunks_of_decodeGroups_front (by omega) hd
    have hoff : 5 * (buf.length / 5 - 1) = buf.length - 5 := by omega
    have hlast : (buf.drop (buf.length - 5)).length ≤ 5 := by rw [List.length_drop]; omega
    rw [encodePadded_append_tail hmod htail, henc, encodeTail_of_decodeTail_ok hdt, bytes5_groupAt (by omega), hoff,
      memRead, List.take_of_length_le hlast, List.take_append_drop]

end Sys2Proof.Machine
end

section
/-! PROOF of `AcceptedTextIsCanonical`: the result that stands at `OBUF` after an accepted text is encoded again. -/

namespace Sys2Proof.Machine

/-- Settles O39: the encoder of each variant undoes its decoder on every accepted text. -/
theorem acceptedTextIsCanonical : Obligations.AcceptedTextIsCanonical := by
  refine ⟨fun s t hexec hst => ?_, fun s t hexec hst => ?_⟩
  · obtain ⟨hmod, henc⟩ := encodeChunks_of_decodeStrict_ok (decs_decodeStrict hexec hst)
    exact completes_of_eq (congrArg (completeBuffer _) (encodeStrict_of_whole_chunks hmod)) ⟨rfl, henc⟩
  · have hdec : decodePadded s.inp.ibuf = .ok t.out.obuf := completeBuffer_ok hexec hst
    exact completes_of_eq rfl ⟨rfl, encodePadded_of_decodePadded_ok hdec⟩

end Sys2Proof.Machine
end

section
/-! PROOF of `EncodersEmitPrintableAscii`: every character that an encoder writes is an entry of `ALPHA`, a digit of
`ENC` or the sentinel. -/

namespace Sys2Proof.Machine

/-- Every byte of the text is an entry of `ALPHA` (R58). -/
def InAlphabet (l : List Byte) : Prop := ∀ b ∈ l, ∃ d, d < 85 ∧ b = alpha d

theorem inAlphabet_append {l l' : List Byte} (h : InAlphabet l) (h' : InAlphabet l') : InAlphabet (l ++ l') := by
  intro b hb
  exact (List.mem_append.mp hb).elim (h b) (h' b)

theorem inAlphabet_sentinels (k : Nat) : InAlphabet (List.replicate k SENTINEL) :=
  fun _ hb => ⟨84, by decide, List.eq_of_mem_replicate hb⟩

theorem inAlphabet_encodeValue (n : Nat) : InAlphabet (bytes5 (encodeValue n)) := by
  have hdigit : ∀ m, ∃ d, d < 85 ∧ alpha (m % RADIX) = alpha d := fun m => ⟨_, Nat.mod_lt m (by decide), rfl⟩
  simp [InAlphabet, bytes5, encodeValue, hdigit]

theorem inAlphabet_encodeChunk (c : Byte4) : InAlphabet (bytes5 (encodeChunk c)) := inAlphabet_encodeValue (be32 c)

theorem inAlphabet_encodeTail (tail : List Byte) : InAlphabet (bytes5 (encodeTail tail)) := by
  have hlen : (List.replicate (4 - tail.length) SENTINEL).length ≤ 5 := by simp; omega
  rw [encodeTail, bytes5_overwriteFront hlen]
  exact inAlphabet_append (inAlphabet_sentinels _) fun b hb => inAlphabet_encodeChunk _ b (List.mem_of_mem_drop hb)

theorem inAlphabet_encodeChunks (buf : List Byte) (k ci : Nat) : InAlphabet (encodeChunks buf k ci) := by
  induction k generalizing ci with
  | zero => exact fun b hb => absurd hb (List.not_mem_nil)
  | succ k ih => exact inAlphabet_append (inAlphabet_encodeChunk _) (ih (ci + 1))

theorem inAlphabet_encodePadded (buf : List Byte) : InAlphabet (encodePadded buf) := by
  rw [encodePadded]
  split
  · exact inAlphabet_append (inAlphabet_encodeChunks _ _ _) (inAlphabet_encodeTail _)
  · exact inAlphabet_encodeChunks _ _ _

theorem inAlphabet_encodeStrict (buf : List Byte) : InAlphabet (bytesOf (encodeStrict buf)) := by
  rw [encodeStrict]
  split
  · exact fun b hb => absurd hb (List.not_mem_nil)
  · exact inAlphabet_encodeChunks _ _ _

/-- The result of each of the four encoders (R58, R59). -/
theorem inAlphabet_resultOf {i : Instr} (h : i.opcode ∈ [0x0, 0x5, 0x8, 0xA]) (buf : List Byte) :
    InAlphabet (bytesOf (resultOf i buf)) := by
  cases i with
  | enc c => exact inAlphabet_encodeChunk c
  | tenc tail => exact inAlphabet_encodeTail tail
  | encs => exact inAlphabet_encodeStrict buf
  | encp => exact inAlphabet_encodePadded buf
  | dec | val | decu | tdet | tdec | decs | decp | vals | decus => simp [Instr.opcode] at h

theorem preconditionHolds_of_encoder {i : Instr} (h : i.opcode ∈ [0x0, 0x5, 0x8, 0xA]) (buf : List Byte) :
    preconditionHolds i buf := by
  cases i with
  | decu | decus => simp [Instr.opcode] at h
  | enc | tenc | encs | encp | dec | val | tdet | tdec | decs | decp | vals => trivial

/-- Settles O40: the ports carry the encoder's result, whose bytes are entries of `ALPHA`. -/
theorem encodersEmitPrintableAscii : Obligations.EncodersEmitPrintableAscii := by
  intro i s t _ hop hexec b hb
  obtain ⟨-, hbytes⟩ := exec_shows (preconditionHolds_of_encoder hop _) hexec
  rw [hbytes] at hb
  obtain ⟨d, hd, rfl⟩ := inAlphabet_resultOf hop _ b hb
  exact ⟨⟨d, hd, rfl⟩, alpha_toNat_range hd⟩

end Sys2Proof.Machine
end

section
/-! SUPPORT. What an environment collects that issues operations one step each, as a function of the operations: an
induction over the list, in which `exec_shows` says what each step leaves at the ports (R66). -/

namespace Sys2Proof.Machine

/-- The operation can be issued on the buffer: it has a word, and its precondition holds. -/
def Issuable (buf : List Byte) (i : Instr) : Prop := i.wellFormed = true ∧ preconditionHolds i buf

/-- The result of operations issued one after another on `buf`: the results appended, or the first error, rebased by 5
times the number of its transaction, counted from `ci` (R66, R98). -/
def expansion (buf : List Byte) : (is : List Instr) → (ci : Nat) → Except Error (List Byte)
  | [], _ => .ok []
  | i :: is, ci =>
    match resultOf i buf with
    | .error e => .error (e.rebase (5 * ci))
    | .ok l => (expansion buf is (ci + 1)).map (l ++ ·)

/-- A collected result with its error rebased by the number of the transaction (R98). -/
def rebased (res : Except (Nat × Error) (List Byte)) : Except Error (List Byte) :=
  res.mapError fun numbered => numbered.2.rebase (5 * numbered.1)

@[simp] theorem rebased_ok (l : List Byte) : rebased (.ok l) = .ok l := rfl
@[simp] theorem rebased_error (ci : Nat) (e : Error) : rebased (.error (ci, e)) = .error (e.rebase (5 * ci)) := rfl

theorem rebased_eq_ok_iff {res : Except (Nat × Error) (List Byte)} {l : List Byte} :
    rebased res = .ok l ↔ res = .ok l := by
  cases res with
  | ok l' => simp
  | error numbered => exact ⟨nofun, nofun⟩

/-- The step that issues an operation completes, and its ports show the operation's result. -/
theorem step_transaction {i : Instr} {is : List Instr} {buf : List Byte} {s : State} (hi : Issuable buf i)
    (hp : s.pending = transactions (i :: is) buf) :
    ∃ t, step s = .next t ∧ t.pending = transactions is buf ∧ Shows (formatOf i) (resultOf i buf) t.out := by
  obtain ⟨hwf, hpre⟩ := hi
  obtain ⟨o, ho⟩ := exec_eq_complete hwf (s.present ⟨encode i, buf⟩ (transactions is buf))
  exact ⟨_, (step_of_decode_ok hp (decode_encode hwf)).trans ho, rfl, exec_shows hpre ho⟩

/-- The collected result of any list of operations, by induction over the list. -/
theorem collect_transactions {is : List Instr} {buf : List Byte} (hall : ∀ i ∈ is, Issuable buf i) (ci : Nat)
    {s : State} (hp : s.pending = transactions is buf) :
    ∃ res, collect is ci s = some res ∧ rebased res = expansion buf is ci := by
  induction is generalizing ci s with
  | nil => exact ⟨_, rfl, rfl⟩
  | cons i is ih =>
    obtain ⟨t, hstep, htp, herror, hbytes⟩ := step_transaction (hall i List.mem_cons_self) hp
    obtain ⟨res, hres, hrebased⟩ := ih (fun j hj => hall j (List.mem_cons_of_mem i hj)) (ci + 1) htp
    cases hr : resultOf i buf with
    | error e => exact ⟨.error (ci, e), by simp [collect, hstep, herror, hr, errorOf], by simp [expansion, hr]⟩
    | ok l =>
      refine ⟨res.map (l ++ ·), ?_, ?_⟩
      · cases res <;> simp [collect, hstep, herror, hbytes, hr, errorOf, bytesOf, hres, Except.map]
      · rw [expansion, hr, ← hrebased]
        cases res <;> rfl

theorem issueAll_eq {is : List Instr} {s : State} (hall : ∀ i ∈ is, Issuable s.inp.ibuf i) :
    ∃ res, issueAll is s = some res ∧ rebased res = expansion s.inp.ibuf is 0 :=
  collect_transactions hall 0 rfl

theorem expansion_append (buf : List Byte) (is is' : List Instr) (ci : Nat) :
    expansion buf (is ++ is') ci =
      (expansion buf is ci).bind fun l => (expansion buf is' (ci + is.length)).map (l ++ ·) := by
  induction is generalizing ci with
  | nil => cases h : expansion buf is' ci <;> simp [expansion, h, Except.bind, Except.map]
  | cons i is ih =>
    have hindex : ci + (is.length + 1) = ci + 1 + is.length := by omega
    cases hr : resultOf i buf with
    | error e => simp [expansion, hr, Except.bind]
    | ok l =>
      rw [List.cons_append, expansion, hr, expansion, hr, List.length_cons, hindex, ih]
      cases expansion buf is (ci + 1) with
      | error e => rfl
      | ok ls => cases expansion buf is' (ci + 1 + is.length) <;> simp [Except.bind, Except.map]

end Sys2Proof.Machine
end

section
/-! PROOF of `SequencerExpandsIntoTransactions`: the expansion of each sequencer operation comes to the operation's own
result (`expansion_encOps` to `expansion_decp_tail`), by induction over the chunks or groups of its loop. -/

namespace Sys2Proof.Machine

/-! ### The loops -/

theorem expansion_enc (buf : List Byte) (k ci : Nat) :
    expansion buf ((List.range' ci k).map fun j => .enc (chunkAt buf (4 * j))) ci = .ok (encodeChunks buf k ci) := by
  induction k generalizing ci with
  | zero => rfl
  | succ k ih =>
    rw [List.range'_succ, List.map_cons, expansion, ih]
    rfl

/-- The groups of a buffer through an operation that delivers `f` of what `DEC` delivers. -/
theorem expansion_map_dec {op : Byte5 → Instr} {f : List Byte → List Byte} {buf : List Byte}
    (hop : ∀ g, resultOf (op g) buf = (decodeChunk g).map f) (hnil : f [] = [])
    (happend : ∀ l l', f (l ++ l') = f l ++ f l') (k ci : Nat) :
    expansion buf ((List.range' ci k).map fun j => op (groupAt buf (5 * j))) ci = (decodeGroups buf k ci).map f := by
  induction k generalizing ci with
  | zero => simp [expansion, decodeGroups, Except.map, hnil]
  | succ k ih =>
    rw [List.range'_succ, List.map_cons, expansion, ih, decodeGroups, hop]
    cases decodeChunk (groupAt buf (5 * ci)) with
    | error e => rfl
    | ok l => cases decodeGroups buf k (ci + 1) <;> simp [Except.map, happend]

theorem expansion_decu (buf : List Byte) (k ci : Nat) :
    expansion buf ((List.range' ci k).map fun j => .decu (groupAt buf (5 * j))) ci =
      .ok (decodeGroupsTrusted buf k ci) := by
  induction k generalizing ci with
  | zero => rfl
  | succ k ih =>
    rw [List.range'_succ, List.map_cons, expansion, ih]
    rfl

/-! ### The expansion of each operation -/

theorem expansion_encOps (buf : List Byte) (k : Nat) : expansion buf (encOps buf k) 0 = .ok (encodeChunks buf k 0) := by
  rw [encOps, List.range_eq_range', expansion_enc]

theorem expansion_groupOps_dec (buf : List Byte) (k : Nat) :
    expansion buf (groupOps .dec buf k) 0 = decodeGroups buf k 0 := by
  have hop : ∀ g, resultOf (.dec g) buf = (decodeChunk g).map id := fun g => by rw [Except.map_id]; rfl
  rw [groupOps, List.range_eq_range', expansion_map_dec hop rfl fun _ _ => rfl, Except.map_id]
  rfl

theorem expansion_encp (buf : List Byte) :
    expansion buf (encOps buf (buf.length / 4) ++
      (if buf.length % 4 = 0 then [] else [.tenc (buf.drop (4 * (buf.length / 4)))])) 0 = resultOf .encp buf := by
  rw [expansion_append, expansion_encOps]
  by_cases h : buf.length % 4 = 0
  · simp [h, expansion, resultOf, encodePadded_of_whole_chunks h, Except.bind, Except.map]
  · have htail : memRead buf (4 * (buf.length / 4)) (buf.length % 4) = buf.drop (4 * (buf.length / 4)) :=
      List.take_of_length_le (by rw [List.length_drop]; omega)
    simp [h, expansion, resultOf, encodePadded, RAW_W, htail, Except.bind, Except.map]

theorem expansion_decs {buf : List Byte} (h : buf.length % 5 = 0) :
    expansion buf (groupOps .dec buf (buf.length / 5)) 0 = resultOf .decs buf := by
  rw [expansion_groupOps_dec, resultOf, decodeStrict_of_whole_groups h]

theorem expansion_vals {buf : List Byte} (h : buf.length % 5 = 0) :
    expansion buf (groupOps .val buf (buf.length / 5)) 0 = resultOf .vals buf := by
  have hop : ∀ g, resultOf (.val g) buf = (decodeChunk g).map fun _ => [] := fun _ => rfl
  rw [groupOps, List.range_eq_range', expansion_map_dec hop rfl fun _ _ => rfl, resultOf,
    validateStrict_eq_map_decodeStrict, decodeStrict_of_whole_groups h]
  cases decodeGroups buf (buf.length / 5) 0 <;> rfl

theorem expansion_decus (buf : List Byte) :
    expansion buf (groupOps .decu buf (buf.length / 5)) 0 = resultOf .decus buf := by
  rw [groupOps, List.range_eq_range', expansion_decu]
  rfl

/-- `DECP` on a text that ends in a tail group: `DEC` on the groups before it, `TDEC` on it. -/
theorem expansion_decp_tail {buf : List Byte} (hn : buf.length ≠ 0) (hm : buf.length % 5 = 0)
    (ht : isTail (groupAt buf (buf.length - 5)) = true) :
    expansion buf (groupOps .dec buf (buf.length / 5 - 1) ++ [.tdec (groupAt buf (buf.length - 5))]) 0 =
      resultOf .decp buf := by
  have hoff : 5 * (buf.length / 5 - 1) = buf.length - 5 := by omega
  have hlen : (groupOps .dec buf (buf.length / 5 - 1)).length = buf.length / 5 - 1 := by simp [groupOps]
  rw [expansion_append, expansion_groupOps_dec, hlen, resultOf]
  have hcases := decodePadded_tail_cases hn hm ht
  simp only [ENC_W] at hcases
  obtain ⟨e, hd, hp⟩ | ⟨body, hd, ⟨e, hdt, hp⟩ | ⟨tail, hdt, hp⟩⟩ := hcases
  · simp [hd, hp, Except.bind]
  · simp [hd, hp, expansion, resultOf, hdt, hoff, Except.bind, Except.map]
  · simp [hd, hp, expansion, resultOf, hdt, Except.bind, Except.map]

/-! ### The operations of an expansion can be issued -/

theorem issuable_encOps (buf : List Byte) (k : Nat) : ∀ i ∈ encOps buf k, Issuable buf i := by
  simp [encOps, Issuable, Instr.wellFormed, preconditionHolds]

theorem issuable_groupOps {op : Byte5 → Instr} {buf : List Byte} {k : Nat}
    (h : ∀ ci < k, Issuable buf (op (groupAt buf (5 * ci)))) : ∀ i ∈ groupOps op buf k, Issuable buf i := by
  simpa [groupOps] using h

theorem issuable_tenc {buf tail : List Byte} (h : IsTail tail) : Issuable buf (.tenc tail) :=
  ⟨tailWellFormed_iff.mpr h, trivial⟩

/-- Every group of a buffer that `VALS` passes is one that `VAL` passes (R106). -/
theorem validateChunk_of_validateGroups_ok {buf : List Byte} {k ci j : Nat} (h : validateGroups buf k ci = .ok ())
    (hj : j < k) : validateChunk (groupAt buf (5 * (ci + j))) = .fine := by
  induction k generalizing ci j with
  | zero => omega
  | succ k ih =>
    cases hv : validateChunk (groupAt buf (5 * ci)) with
    | badByte i c => simp [validateGroups, hv] at h
    | tooLarge => simp [validateGroups, hv] at h
    | fine =>
      cases j with
      | zero => exact hv
      | succ j =>
        have hindex : ci + (j + 1) = ci + 1 + j := by omega
        exact hindex ▸ ih (by simpa [validateGroups, hv] using h) (by omega)

theorem issuable_decu {buf : List Byte} (h : validateStrict buf = .ok ()) :
    ∀ i ∈ groupOps .decu buf (buf.length / 5), Issuable buf i := by
  by_cases hm : buf.length % ENC_W = 0
  · have hgroups : validateGroups buf (buf.length / 5) 0 = .ok () := (if_neg (not_not_intro hm)).symm.trans h
    refine issuable_groupOps fun ci hci => ⟨rfl, ?_⟩
    have hfine := validateChunk_of_validateGroups_ok hgroups hci
    rwa [Nat.zero_add] at hfine
  · simp [validateStrict, hm] at h

/-! ### The operation and its expansion end alike -/

/-- What the ports of a sequencer operation say of the result that an environment has collected. -/
def Agrees (res : Except (Nat × Error) (List Byte)) (o : Outputs) : Prop :=
  (∀ l, res = .ok l → o.st = .ok ∧ o.obuf = l) ∧
  (∀ ci e, res = .error (ci, e) → errorAt .sequencer o = some (e.rebase (5 * ci)))

/-- A sequencer operation whose expansion comes to its own result ends as the issued transactions do. -/
theorem expands {s : State} {is : List Instr} {i : Instr} (hall : ∀ j ∈ is, Issuable s.inp.ibuf j)
    (hexp : expansion s.inp.ibuf is 0 = resultOf i s.inp.ibuf)
    (hexec : exec i s = completeBuffer s (resultOf i s.inp.ibuf)) :
    ∃ res, issueAll is s = some res ∧ Completes i s (Agrees res) := by
  obtain ⟨res, hissue, hres⟩ := issueAll_eq hall
  rw [← hexp, ← hres] at hexec
  refine ⟨res, hissue, ?_⟩
  cases res with
  | ok l => exact completes_of_eq hexec ⟨by simp, by simp⟩
  | error numbered =>
    refine completes_of_eq hexec ⟨nofun, ?_⟩
    rintro ci e ⟨rfl⟩
    exact errorAt_raise_sequencer _ _

/-- An operation that reports no error expands into transactions that report none. -/
theorem expands_ok {s : State} {is : List Instr} {i : Instr} {l : List Byte} (hall : ∀ j ∈ is, Issuable s.inp.ibuf j)
    (hexp : expansion s.inp.ibuf is 0 = .ok l) (hexec : exec i s = completeBuffer s (.ok l)) :
    ∃ l, issueAll is s = some (.ok l) ∧ Completes i s fun o => o.st = .ok ∧ o.obuf = l := by
  obtain ⟨res, hissue, hres⟩ := issueAll_eq hall
  obtain rfl := rebased_eq_ok_iff.mp (hres.trans hexp)
  exact ⟨l, hissue, completes_of_eq hexec ⟨rfl, rfl⟩⟩

/-- `VALS` drives no `OBUF`, so its result is read from the ports that it does drive (R106). -/
theorem expands_vals {s : State} {is : List Instr} (hall : ∀ j ∈ is, Issuable s.inp.ibuf j)
    (hexp : expansion s.inp.ibuf is 0 = resultOf .vals s.inp.ibuf) :
    ∃ res, issueAll is s = some res ∧ Completes .vals s fun o =>
      (∀ l, res = .ok l → o.st = .ok ∧ l = []) ∧
      (∀ ci e, res = .error (ci, e) → errorAt .sequencer o = some (e.rebase (5 * ci))) := by
  obtain ⟨res, hissue, hres⟩ := issueAll_eq hall
  rw [hexp] at hres
  refine ⟨res, hissue, ?_⟩
  cases hv : validateStrict s.inp.ibuf with
  | ok =>
    have hexec : exec .vals s = complete s (deliverNoBuffer s.draws) := by rw [exec, execVals, hv]
    obtain rfl : res = .ok [] := rebased_eq_ok_iff.mp (by rw [hres, resultOf, hv]; rfl)
    exact completes_of_eq hexec ⟨by simp, nofun⟩
  | error e =>
    have hexec : exec .vals s = complete s (raise .sequencer e s.draws) := by rw [exec, execVals, hv]
    have herror : rebased res = .error e := by rw [hres, resultOf, hv]; rfl
    refine completes_of_eq hexec ⟨?_, ?_⟩
    · rintro l rfl
      cases herror
    · rintro ci e' rfl
      obtain rfl : e'.rebase (5 * ci) = e := Except.error.inj herror
      exact errorAt_raise_sequencer _ _

/-- Settles O36: each expansion can be issued and comes to the operation's own result. -/
theorem sequencerExpandsIntoTransactions : Obligations.SequencerExpandsIntoTransactions := by
  intro s
  have hdec : ∀ k, ∀ i ∈ groupOps .dec s.inp.ibuf k, Issuable s.inp.ibuf i :=
    fun k => issuable_groupOps fun _ _ => ⟨rfl, trivial⟩
  refine ⟨fun hlen => ?encs, ?encp, fun hlen => ?decs, fun hlen => ?vals, fun hok => ?decus, fun hne hlen u hu => ?decp⟩
  case encs =>
    exact expands_ok (issuable_encOps _ _) (expansion_encOps _ _)
      (congrArg (completeBuffer s) (encodeStrict_of_whole_chunks hlen))
  case encp =>
    refine expands_ok (fun i hi => ?_) (expansion_encp _) rfl
    obtain hi | hi := List.mem_append.mp hi
    · exact issuable_encOps _ _ i hi
    · split at hi
      · cases hi
      · obtain rfl := List.mem_singleton.mp hi
        exact issuable_tenc ⟨by rw [List.length_drop]; omega, by rw [List.length_drop]; omega⟩
  case decs => exact expands (hdec _) (expansion_decs hlen) rfl
  case vals => exact expands_vals (issuable_groupOps fun _ _ => ⟨rfl, trivial⟩) (expansion_vals hlen)
  case decus => exact expands_ok (issuable_decu hok) (expansion_decus _) (execDecus_eq_completeBuffer hok)
  case decp =>
    have hn : s.inp.ibuf.length ≠ 0 := fun h => hne (List.eq_nil_of_length_eq_zero h)
    obtain rfl := complete_next.mp hu
    cases ht : isTail (groupAt s.inp.ibuf (s.inp.ibuf.length - 5)) with
    | true =>
      refine expands (fun i hi => ?_) (expansion_decp_tail hn hlen ht) rfl
      obtain hi | hi := List.mem_append.mp hi
      · exact hdec _ i hi
      · obtain rfl := List.mem_singleton.mp hi
        exact ⟨rfl, trivial⟩
    | false =>
      have hstrict : decodePadded s.inp.ibuf = decodeStrict s.inp.ibuf :=
        decodePadded_eq_decodeStrict (.inr (.inr ht))
      exact expands (hdec _) ((expansion_decs hlen).trans hstrict.symm) rfl

end Sys2Proof.Machine
end

section
/-! SUPPORT. The digits of a value, by place: what `ENC` delivers, in closed form and as digits read back, and the value
that the chunk decoder reads of it (R28, R67). -/

namespace Sys2Proof.Machine

/-! ### The digit at a place -/

/-- The digit of `n` at place `i` of a group, place 0 the most significant (R28, R67). -/
def digit (n i : Nat) : Nat := n / 85 ^ (4 - i) % 85

theorem digit_lt (n i : Nat) : digit n i < 85 := Nat.mod_lt _ (by decide)

theorem digitSum_digit {n : Nat} (h : n < 85 ^ 5) :
    digitSum (digit n 0) (digit n 1) (digit n 2) (digit n 3) (digit n 4) = n := by
  simp only [digitSum, digit]
  omega

theorem be32_lt (c : Byte4) : be32 c < 85 ^ 5 := (be32_le_MAX32 c).trans_lt (by decide)

/-- Numbers are compared at the first place where what is left of the two, cut behind that place, differs: the places
before it agree, and it holds the smaller digit of the smaller number. -/
theorem exists_digit_lt {n n' : Nat} (h : n < n') (h' : n' < 85 ^ 5) :
    ∃ i, i < 5 ∧ (∀ j, j < i → digit n j = digit n' j) ∧ digit n i < digit n' i := by
  have hdiff : ∃ i, n / 85 ^ (4 - i) ≠ n' / 85 ^ (4 - i) := ⟨4, by simpa using h.ne⟩
  obtain ⟨i, hne, hmin⟩ : ∃ i, n / 85 ^ (4 - i) ≠ n' / 85 ^ (4 - i) ∧
      ∀ j, j < i → n / 85 ^ (4 - j) = n' / 85 ^ (4 - j) :=
    ⟨Nat.find hdiff, Nat.find_spec hdiff, fun j hj => not_not.mp (Nat.find_min hdiff hj)⟩
  have hi : i < 5 := by
    by_contra hi
    exact h.ne (by simpa using hmin 4 (by omega))
  have hcut : n / 85 ^ (4 - i) / 85 = n' / 85 ^ (4 - i) / 85 := by
    rw [Nat.div_div_eq_div_mul, Nat.div_div_eq_div_mul, ← pow_succ]
    cases i with
    | zero => rw [Nat.div_eq_of_lt (h.trans h'), Nat.div_eq_of_lt h']
    | succ i =>
      have hexp : 4 - (i + 1) + 1 = 4 - i := by omega
      rw [hexp, hmin i (Nat.lt_succ_self i)]
  have hle : n / 85 ^ (4 - i) ≤ n' / 85 ^ (4 - i) := Nat.div_le_div_right h.le
  refine ⟨i, hi, fun j hj => by rw [digit, digit, hmin j hj], ?_⟩
  simp only [digit]
  omega

/-! ### The group of a value -/

/-- The repeated division of `ENC` in closed form (R67). -/
theorem encodeValue_eq (n : Nat) : encodeValue n =
    ⟨alpha (digit n 0), alpha (digit n 1), alpha (digit n 2), alpha (digit n 3), alpha (digit n 4)⟩ := by
  simp [encodeValue, digit, RADIX, Nat.div_div_eq_div_mul]

theorem getElem?_bytes5_encodeValue (n : Nat) {i : Nat} (h : i < 5) :
    (bytes5 (encodeValue n))[i]? = some (alpha (digit n i)) := by
  have hlist : bytes5 (encodeValue n) = (List.range 5).map fun i => alpha (digit n i) := by
    rw [encodeValue_eq]
    rfl
  simp [hlist, h]

theorem getElem?_map_inv_encodeValue (n : Nat) {i : Nat} (h : i < 5) :
    ((bytes5 (encodeValue n)).map inv)[i]? = some (some (digit n i)) := by
  rw [List.getElem?_map, getElem?_bytes5_encodeValue n h, Option.map_some, inv_alpha (digit_lt n i)]

theorem hasDigits_encodeValue (n : Nat) :
    HasDigits (encodeValue n) (digit n 0) (digit n 1) (digit n 2) (digit n 3) (digit n 4) := by
  rw [encodeValue_eq]
  exact ⟨inv_alpha (digit_lt n 0), inv_alpha (digit_lt n 1), inv_alpha (digit_lt n 2), inv_alpha (digit_lt n 3),
    inv_alpha (digit_lt n 4)⟩

/-! ### The value of a group -/

/-- The walk over five valid bytes comes to the value of their digits (R72, R128). -/
theorem walk_of_hasDigits {g : Byte5} {d0 d1 d2 d3 d4 : Nat} (h : HasDigits g d0 d1 d2 d3 d4) :
    walk 0 0 (bytes5 g) = .value (digitSum d0 d1 d2 d3 d4) := by
  obtain ⟨h0, h1, h2, h3, h4⟩ := h
  simp only [bytes5, walk, h0, h1, h2, h3, h4, RADIX, digitSum, Walk.value.injEq]
  omega

theorem chunkValue_of_hasDigits {g : Byte5} {d0 d1 d2 d3 d4 : Nat} (h : HasDigits g d0 d1 d2 d3 d4)
    (hle : digitSum d0 d1 d2 d3 d4 ≤ MAX32) : chunkValue g = .ok (digitSum d0 d1 d2 d3 d4) := by
  rw [chunkValue, walk_of_hasDigits h]
  exact if_neg (not_lt.mpr hle)

/-- The decoder reads back the value that was encoded. -/
theorem chunkValue_encodeValue {n : Nat} (h : n ≤ MAX32) : chunkValue (encodeValue n) = .ok n := by
  have hsum := digitSum_digit (h.trans_lt (by decide))
  rw [chunkValue_of_hasDigits (hasDigits_encodeValue n) (hsum.trans_le h), hsum]

theorem chunkValue_encodeChunk (c : Byte4) : chunkValue (encodeChunk c) = .ok (be32 c) :=
  chunkValue_encodeValue (be32_le_MAX32 c)

theorem decodeChunk_of_chunkValue_ok {g : Byte5} {n : Nat} (h : chunkValue g = .ok n) :
    decodeChunk g = .ok (bytes4 (bytesBe32 n)) := by
  simp [decodeChunk, h]

/-- Decoding the group of a chunk gives the chunk back. -/
theorem decodeChunk_encodeChunk (c : Byte4) : decodeChunk (encodeChunk c) = .ok (bytes4 c) := by
  rw [decodeChunk_of_chunkValue_ok (chunkValue_encodeChunk c), bytesBe32_be32]

end Sys2Proof.Machine
end

section
/-! PROOF of `EncDeliversBase85Digits`, `EncIsTotalAndInjective`, `EncNeverStartsWithSentinel` and `EncKeepsOrder`: after
`ENC` the group of the chunk stands at `DOUT`, and its bytes are `ALPHA` at the digits of the chunk's value. -/

namespace Sys2Proof.Machine

/-- `ENC` ends with the group of its chunk delivered, on every chunk (R68). -/
theorem exec_enc (c : Byte4) (s : State) :
    exec (.enc c) s = complete s (deliverBytes s.draws (bytes5 (encodeChunk c))) := rfl

/-- All five bytes of `DOUT` are driven, so none is a free value. -/
theorem dout_deliverBytes_bytes5 (n : Nat) (g : Byte5) : (deliverBytes n (bytes5 g)).dout = g :=
  overwriteFront_bytes5 g _

theorem enc_dout {c : Byte4} {s t : State} (h : exec (.enc c) s = .next t) : t.out.dout = encodeChunk c := by
  obtain rfl := complete_next.mp ((exec_enc c s).symm.trans h)
  exact dout_deliverBytes_bytes5 _ _

/-- `ENC` reads four operand bytes and ignores `TLEN` and `DIN[4]` (R61, R67). -/
theorem decode_packReq_enc (tlen : BitVec 3) (c : Byte4) (b : Byte) :
    decode (packReq 0x0 tlen ⟨c.b0, c.b1, c.b2, c.b3, b⟩) = .ok (.enc c) := by
  rw [← decode_encode (i := .enc c) rfl, encode]
  exact decode_congr (by simp [Instr.opcode]) (by simp [bytes5]) (by simp) (by simp)

/-- Settles O13: the group at `DOUT` is the closed form of the repeated division. -/
theorem encDeliversBase85Digits : Obligations.EncDeliversBase85Digits := by
  refine fun c s => ⟨fun tlen b => decode_packReq_enc tlen c b, be32_lt c, completes_of_eq (exec_enc c s) ?_⟩
  refine ⟨rfl, rfl, fun i hi => ?_⟩
  rw [dout_deliverBytes_bytes5]
  exact getElem?_bytes5_encodeValue (be32 c) hi

/-- The group spells the value of the chunk, and the value determines the four bytes. -/
theorem encodeChunk_injective {c c' : Byte4} (h : encodeChunk c = encodeChunk c') : c = c' := by
  have hdec : decodeChunk (encodeChunk c) = decodeChunk (encodeChunk c') := congrArg decodeChunk h
  rw [decodeChunk_encodeChunk, decodeChunk_encodeChunk] at hdec
  exact bytes4_injective (Except.ok.inj hdec)

/-- Settles O14: `ENC` delivers on every chunk, and the decoder gives the chunk back. -/
theorem encIsTotalAndInjective : Obligations.EncIsTotalAndInjective := by
  refine ⟨fun c s => completes_of_eq (exec_enc c s) rfl, fun c c' s s' t t' h h' hdout => ?_⟩
  rw [enc_dout h, enc_dout h'] at hdout
  exact encodeChunk_injective hdout

/-- The first digit of a chunk value: 2^32 - 1 starts with the digit 82 (R69). -/
theorem digit_zero_le {n : Nat} (h : n ≤ MAX32) : digit n 0 ≤ 82 := by
  simp only [MAX32] at h
  simp only [digit]
  omega

/-- `'#'` and `'$'` are the characters of the digits 84 and 83 (R69; log 14). -/
theorem alpha_ne_sentinel_or_dollar {d : Nat} (h : d ≤ 82) : alpha d ≠ SENTINEL ∧ alpha d ≠ 0x24 := by
  revert d
  decide

/-- Settles O15: every byte is an entry of `ALPHA`, and the first digit of a 32-bit value is at most 82. -/
theorem encNeverStartsWithSentinel : Obligations.EncNeverStartsWithSentinel := by
  refine fun c s => completes_of_eq (exec_enc c s) ?_
  have hfirst : (encodeChunk c).b0 = alpha (digit (be32 c) 0) := by rw [encodeChunk, encodeValue_eq]
  have hle := digit_zero_le (be32_le_MAX32 c)
  rw [dout_deliverBytes_bytes5, hfirst]
  refine ⟨fun b hb => ?_, ⟨_, hle, rfl⟩, alpha_ne_sentinel_or_dollar hle⟩
  obtain ⟨d, hd, rfl⟩ := inAlphabet_encodeChunk c b hb
  exact ⟨⟨d, hd, rfl⟩, alpha_toNat_range hd⟩

/-- Settles O16: the digits read back from the two groups are those of the two values, which `exists_digit_lt`
compares. -/
theorem encKeepsOrder : Obligations.EncKeepsOrder := by
  intro c c' s s' t t' hlt h h'
  obtain ⟨i, hi, hagree, hdigit⟩ := exists_digit_lt hlt (be32_lt c')
  rw [enc_dout h, enc_dout h', encodeChunk, encodeChunk]
  refine ⟨i, _, _, hi, fun j hj => ?_, getElem?_map_inv_encodeValue _ hi, getElem?_map_inv_encodeValue _ hi, hdigit⟩
  rw [getElem?_map_inv_encodeValue _ (hj.trans hi), getElem?_map_inv_encodeValue _ (hj.trans hi), hagree j hj]

end Sys2Proof.Machine
end

section
/-! SUPPORT. What the chunk decoder makes of a group, by the group's bytes (R72 to R75), and how `DEC` and `VAL`, which
take the same walk (R79), end on it. -/

namespace Sys2Proof.Machine

/-! ### The word -/

/-- An operation that reads a group ignores `TLEN` (R61). -/
theorem decode_packReq_tlen {op : BitVec 4} (h : op.toNat ∈ [1, 2, 3, 4, 6]) (tlen tlen' : BitVec 3) (g : Byte5) :
    decode (packReq op tlen g) = decode (packReq op tlen' g) := by
  refine decode_congr (by simp) (by simp) (fun h5 => ?_) (by simp)
  obtain rfl : op = 0x5 := (op_packReq op tlen g).symm.trans h5
  exact absurd h (by decide)

/-! ### The value of a group -/

/-- Only one byte of a group is its leftmost invalid one. -/
theorem FirstInvalid.unique {g : Byte5} {i j : Nat} {c b : Byte} (h : FirstInvalid g i c) (h' : FirstInvalid g j b) :
    i = j ∧ c = b := by
  obtain ⟨hc, hbad, hmin⟩ := h
  obtain ⟨hb, hbad', hmin'⟩ := h'
  obtain hlt | rfl | hgt := lt_trichotomy i j
  · exact absurd hbad (hmin' i c hlt hc)
  · exact ⟨rfl, Option.some.inj (hc.symm.trans hb)⟩
  · exact absurd hbad' (hmin j b hgt hb)

/-- A group whose bytes spell digits has no invalid byte. -/
theorem HasDigits.not_firstInvalid {g : Byte5} {d0 d1 d2 d3 d4 i : Nat} {c : Byte} (h : HasDigits g d0 d1 d2 d3 d4) :
    ¬ FirstInvalid g i c := by
  obtain ⟨h0, h1, h2, h3, h4⟩ := h
  have hvalid : ∀ b ∈ bytes5 g, inv b ≠ none := by simp [bytes5, h0, h1, h2, h3, h4]
  rintro ⟨hc, hbad, -⟩
  exact hvalid c (List.mem_of_getElem? hc) hbad

theorem chunkValue_of_firstInvalid {g : Byte5} {i : Nat} {c : Byte} (h : FirstInvalid g i c) :
    chunkValue g = .error (.invalidByte i c) := by
  obtain ⟨j, b, hj, -, hv⟩ | ⟨_, _, _, _, _, hdigits, -⟩ := chunkValue_cases g
  · obtain ⟨rfl, rfl⟩ := h.unique hj
    exact hv
  · exact absurd h hdigits.not_firstInvalid

theorem chunkValue_of_hasDigits_large {g : Byte5} {d0 d1 d2 d3 d4 : Nat} (h : HasDigits g d0 d1 d2 d3 d4)
    (hlt : MAX32 < digitSum d0 d1 d2 d3 d4) : chunkValue g = .error (.invalidChunk 0) := by
  rw [chunkValue, walk_of_hasDigits h]
  exact if_pos hlt

/-- A value is delivered only where five digits spell it. -/
theorem hasDigits_of_chunkValue_ok {g : Byte5} {n : Nat} (h : chunkValue g = .ok n) :
    ∃ d0 d1 d2 d3 d4, HasDigits g d0 d1 d2 d3 d4 ∧ digitSum d0 d1 d2 d3 d4 = n := by
  obtain ⟨i, c, -, -, hv⟩ | ⟨d0, d1, d2, d3, d4, hdigits, ⟨-, hv⟩ | ⟨-, hv⟩⟩ := chunkValue_cases g
  · cases h.symm.trans hv
  · cases h.symm.trans hv
  · exact ⟨d0, d1, d2, d3, d4, hdigits, Except.ok.inj (hv.symm.trans h)⟩

/-! ### How `DEC` and `VAL` end -/

/-- `DEC` and `VAL` report the walk's error alike (R72, R78). -/
theorem exec_of_chunkValue_error {i : Instr} {g : Byte5} {e : Error} (hi : i = .dec g ∨ i = .val g)
    (h : chunkValue g = .error e) (s : State) : exec i s = complete s (raise .chunk e s.draws) := by
  have hdec : decodeChunk g = .error e := decodeChunk_error_iff.mpr h
  obtain rfl | rfl := hi
  · rw [exec, execDec, hdec, completeChunk]
  · rw [exec, execVal_eq_completeChunk, hdec, Except.map, completeChunk]

theorem exec_dec_of_chunkValue_ok {g : Byte5} {n : Nat} (h : chunkValue g = .ok n) (s : State) :
    exec (.dec g) s = complete s (deliverBytes s.draws (bytes4 (bytesBe32 n))) := by
  rw [exec, execDec, decodeChunk_of_chunkValue_ok h, completeChunk]

/-- `VAL` passes the group and delivers no byte (R78). -/
theorem exec_val_of_chunkValue_ok {g : Byte5} {n : Nat} (h : chunkValue g = .ok n) (s : State) :
    exec (.val g) s = complete s (deliverBytes s.draws []) := by
  rw [exec, execVal_eq_completeChunk, decodeChunk_of_chunkValue_ok h, Except.map, completeChunk]

/-- With status `OK` after `DEC` or `VAL`, the group has a 32-bit value. -/
theorem chunkValue_ok_of_st_ok {i : Instr} {g : Byte5} {s t : State} (hi : i = .dec g ∨ i = .val g)
    (h : exec i s = .next t) (hst : t.out.st = .ok) : ∃ n, chunkValue g = .ok n := by
  cases hv : chunkValue g with
  | ok n => exact ⟨n, rfl⟩
  | error e =>
    obtain rfl := complete_next.mp ((exec_of_chunkValue_error hi hv s).symm.trans h)
    exact absurd ((raise_st .chunk e s.draws).symm.trans hst) (errorStatus_ne_ok e)

theorem dec_out_of_chunkValue_ok {g : Byte5} {n : Nat} {s t : State} (h : exec (.dec g) s = .next t)
    (hv : chunkValue g = .ok n) : t.out = deliverBytes s.draws (bytes4 (bytesBe32 n)) := by
  obtain rfl := complete_next.mp ((exec_dec_of_chunkValue_ok hv s).symm.trans h)
  rfl

/-- The chunk that was delivered stands on the first four bytes of `DOUT` (R18). -/
theorem front_dout_deliverBytes_bytes4 (n : Nat) (c : Byte4) :
    (⟨(deliverBytes n (bytes4 c)).dout.b0, (deliverBytes n (bytes4 c)).dout.b1, (deliverBytes n (bytes4 c)).dout.b2,
      (deliverBytes n (bytes4 c)).dout.b3⟩ : Byte4) = c := rfl

/-! ### The three outcomes of the walk -/

theorem completes_of_firstInvalid {i : Instr} {g : Byte5} {k : Nat} {c : Byte} (hi : i = .dec g ∨ i = .val g)
    (h : FirstInvalid g k c) (s : State) :
    Completes i s fun o => o.st = .invalidByte ∧ o.epos.toNat = k ∧ o.ebyte = c ∧ o.olen = 0 := by
  have hv := chunkValue_of_firstInvalid h
  have hk : k ≤ 4 := chunkValue_error_isLocal hv
  have hepos : (BitVec.ofNat 3 k).toNat = k := Nat.mod_eq_of_lt (by omega)
  exact completes_of_eq (exec_of_chunkValue_error hi hv s) ⟨rfl, hepos, rfl, rfl⟩

theorem completes_of_digitSum_large {i : Instr} {g : Byte5} {d0 d1 d2 d3 d4 : Nat} (hi : i = .dec g ∨ i = .val g)
    (h : HasDigits g d0 d1 d2 d3 d4) (hlt : MAX32 < digitSum d0 d1 d2 d3 d4) (s : State) :
    Completes i s fun o => o.st = .invalidChunk ∧ o.epos = 0 ∧ o.olen = 0 :=
  completes_of_eq (exec_of_chunkValue_error hi (chunkValue_of_hasDigits_large h hlt) s) ⟨rfl, rfl, rfl⟩

theorem dec_completes_of_digitSum_le {g : Byte5} {d0 d1 d2 d3 d4 : Nat} (h : HasDigits g d0 d1 d2 d3 d4)
    (hle : digitSum d0 d1 d2 d3 d4 ≤ MAX32) (s : State) :
    Completes (.dec g) s fun o => o.st = .ok ∧ o.olen = 4 ∧
      be32 ⟨o.dout.b0, o.dout.b1, o.dout.b2, o.dout.b3⟩ = digitSum d0 d1 d2 d3 d4 := by
  refine completes_of_eq (exec_dec_of_chunkValue_ok (chunkValue_of_hasDigits h hle) s) ⟨rfl, rfl, ?_⟩
  rw [front_dout_deliverBytes_bytes4, be32_bytesBe32 hle]

/-- The status that `DEC` ends with on five valid bytes is the range test on their value (R74). -/
theorem dec_st_iff_of_hasDigits {g : Byte5} {d0 d1 d2 d3 d4 : Nat} (h : HasDigits g d0 d1 d2 d3 d4) (s : State) :
    Completes (.dec g) s fun o =>
      (o.st = .invalidChunk ↔ MAX32 < digitSum d0 d1 d2 d3 d4) ∧ (o.st = .ok ↔ digitSum d0 d1 d2 d3 d4 ≤ MAX32) := by
  by_cases hlt : MAX32 < digitSum d0 d1 d2 d3 d4
  · refine (completes_of_digitSum_large (.inl rfl) h hlt s).imp fun o ⟨hst, _⟩ => ?_
    simp [hst, hlt]
  · refine (dec_completes_of_digitSum_le h (not_lt.mp hlt) s).imp fun o ⟨hst, _⟩ => ?_
    simp [hst, not_lt.mp hlt]

end Sys2Proof.Machine
end

section
/-! PROOF of `DecChecksAndDecodes`, `DecRejectsDigitsAboveTheLimit`, `ChunkRoundTrip`, `ValClassifies` and
`ValAgreesWithDec`: `DEC` and `VAL` end as the value of the group says, which is an error or a number whose digits are
those of the group. -/

namespace Sys2Proof.Machine

/-- Settles O17: the three outcomes of the walk, each at the ports of `DEC`. -/
theorem decChecksAndDecodes : Obligations.DecChecksAndDecodes := by
  refine fun g s => ⟨fun tlen => ?_, fun i c h => ?_, fun d0 d1 d2 d3 d4 h hlt => ?_, fun d0 d1 d2 d3 d4 h hle => ?_⟩
  · exact (decode_packReq_tlen (by decide) tlen 0 g).trans (decode_encode (i := .dec g) rfl)
  · exact completes_of_firstInvalid (.inl rfl) h s
  · exact completes_of_digitSum_large (.inl rfl) h hlt s
  · exact dec_completes_of_digitSum_le h hle s

/-- 82, 23, 54, 12, 0 are the digits of 2^32 - 1, and numbers of five digits are ordered as their digit sequences are
(R74). -/
theorem MAX32_lt_digitSum_iff {d0 d1 d2 d3 d4 : Nat} (h1 : d1 < RADIX) (h2 : d2 < RADIX) (h3 : d3 < RADIX)
    (h4 : d4 < RADIX) :
    MAX32 < digitSum d0 d1 d2 d3 d4 ↔
      82 < d0 ∨ (d0 = 82 ∧ (23 < d1 ∨ (d1 = 23 ∧ (54 < d2 ∨ (d2 = 54 ∧ (12 < d3 ∨ (d3 = 12 ∧ 0 < d4))))))) := by
  have hlimit : MAX32 = digitSum 82 23 54 12 0 := by decide
  simp only [RADIX] at h1 h2 h3 h4
  rw [hlimit]
  simp only [digitSum]
  omega

theorem HasDigits.lt_RADIX {g : Byte5} {d0 d1 d2 d3 d4 : Nat} (h : HasDigits g d0 d1 d2 d3 d4) :
    d0 < RADIX ∧ d1 < RADIX ∧ d2 < RADIX ∧ d3 < RADIX ∧ d4 < RADIX := by
  obtain ⟨h0, h1, h2, h3, h4⟩ := h
  exact ⟨(alpha_of_inv h0).1, (alpha_of_inv h1).1, (alpha_of_inv h2).1, (alpha_of_inv h3).1, (alpha_of_inv h4).1⟩

/-- Settles O18: the range test on the value, read as a comparison of digit sequences. -/
theorem decRejectsDigitsAboveTheLimit : Obligations.DecRejectsDigitsAboveTheLimit := by
  intro g s d0 d1 d2 d3 d4 h
  have hdec := dec_st_iff_of_hasDigits h s
  obtain ⟨-, h1, h2, h3, h4⟩ := h.lt_RADIX
  have hlimit := MAX32_lt_digitSum_iff (d0 := d0) h1 h2 h3 h4
  refine ⟨hdec.imp fun o ⟨hbad, _⟩ => hbad.trans hlimit, fun h83 => ?_, fun h81 => ?_⟩
  · exact hdec.imp fun o ⟨hbad, _⟩ => hbad.mpr (hlimit.mpr (.inl h83))
  · have hle : digitSum d0 d1 d2 d3 d4 ≤ MAX32 := by
      rw [← not_lt, hlimit]
      omega
    exact hdec.imp fun o ⟨_, hok⟩ => hok.mpr hle

/-- Settles O19: `decodeChunk_encodeChunk` and `encodeChunk_of_decodeChunk_ok`, each at the ports. -/
theorem chunkRoundTrip : Obligations.ChunkRoundTrip := by
  refine ⟨fun c s t henc => ?_, fun g s t hdec hst => ?_⟩
  · rw [enc_dout henc]
    refine completes_of_eq (exec_dec_of_chunkValue_ok (chunkValue_encodeChunk c) t) ⟨rfl, ?_⟩
    rw [bytesBe32_be32, bytesAt_deliverBytes (by simp)]
  · obtain ⟨n, hv⟩ := chunkValue_ok_of_st_ok (.inl rfl) hdec hst
    obtain ⟨hle, hg⟩ := encodeValue_of_chunkValue_ok hv
    rw [dec_out_of_chunkValue_ok hdec hv, front_dout_deliverBytes_bytes4]
    refine completes_of_eq (exec_enc (bytesBe32 n) t) ?_
    rw [dout_deliverBytes_bytes5, encodeChunk_bytesBe32 hle, hg]

/-- Settles O20: the outcomes of `DEC`'s walk, with no byte delivered. -/
theorem valClassifies : Obligations.ValClassifies := by
  refine fun g s => ⟨fun tlen => ?_, fun i c h => ?_, fun d0 d1 d2 d3 d4 h hlt => ?_, fun d0 d1 d2 d3 d4 h hle => ?_⟩
  · exact (decode_packReq_tlen (by decide) tlen 0 g).trans (decode_encode (i := .val g) rfl)
  · exact completes_of_firstInvalid (.inr rfl) h s
  · exact completes_of_digitSum_large (.inr rfl) h hlt s
  · exact completes_of_eq (exec_val_of_chunkValue_ok (chunkValue_of_hasDigits h hle) s) ⟨rfl, rfl⟩

/-- Settles O21: both end as the value of the group says, with the same error raised or with none. -/
theorem valAgreesWithDec : Obligations.ValAgreesWithDec := by
  intro g s s' t t' hval hdec
  cases hv : chunkValue g with
  | error e =>
    obtain rfl := complete_next.mp ((exec_of_chunkValue_error (.inr rfl) hv s).symm.trans hval)
    obtain rfl := complete_next.mp ((exec_of_chunkValue_error (.inl rfl) hv s').symm.trans hdec)
    have he : e.IsLocal := chunkValue_error_isLocal hv
    exact ⟨by simp, by simp [errorAt_raise_chunk he], by simp⟩
  | ok n =>
    obtain rfl := complete_next.mp ((exec_val_of_chunkValue_ok hv s).symm.trans hval)
    rw [dec_out_of_chunkValue_ok hdec hv]
    exact ⟨rfl, rfl, rfl⟩

end Sys2Proof.Machine
end

section
/-! PROOF of `DecuDecodesValidatedGroups`: the weighted sum that `DECU` takes with no test is the value of the digits,
which `DEC` delivers where `VAL` passes the group. -/

namespace Sys2Proof.Machine

theorem uncheckedValue_of_hasDigits {g : Byte5} {d0 d1 d2 d3 d4 : Nat} (h : HasDigits g d0 d1 d2 d3 d4) :
    uncheckedValue g = digitSum d0 d1 d2 d3 d4 := by
  obtain ⟨h0, h1, h2, h3, h4⟩ := h
  simp [uncheckedValue, digitSum, h0, h1, h2, h3, h4]

theorem uncheckedValue_of_chunkValue_ok {g : Byte5} {n : Nat} (h : chunkValue g = .ok n) : uncheckedValue g = n := by
  obtain ⟨d0, d1, d2, d3, d4, hdigits, hsum⟩ := hasDigits_of_chunkValue_ok h
  exact (uncheckedValue_of_hasDigits hdigits).trans hsum

theorem validateChunk_of_chunkValue_ok {g : Byte5} {n : Nat} (h : chunkValue g = .ok n) : validateChunk g = .fine := by
  have hdec := decodeChunk_of_chunkValue_ok h
  obtain ⟨i, c, -, he⟩ | ⟨-, he⟩ | ⟨hfine, -⟩ := validateChunk_cases g
  · cases hdec.symm.trans he
  · cases hdec.symm.trans he
  · exact hfine

/-- Within its precondition `DECU` ends as `DEC` does (R81). -/
theorem exec_decu_of_chunkValue_ok {g : Byte5} {n : Nat} (h : chunkValue g = .ok n) (s : State) :
    exec (.decu g) s = complete s (deliverBytes s.draws (bytes4 (bytesBe32 n))) := by
  rw [exec, execDecu_eq_completeChunk (validateChunk_of_chunkValue_ok h), decodeChunkTrusted,
    uncheckedValue_of_chunkValue_ok h, completeChunk]

/-- Settles O22: `DECU` looks at nothing before it delivers, and within its precondition it delivers as `DEC` does. -/
theorem decuDecodesValidatedGroups : Obligations.DecuDecodesValidatedGroups := by
  refine fun g s => ⟨fun tlen => ?_, completes_of_eq (i := .decu g) rfl ⟨rfl, rfl⟩, fun s' v s'' u hval hst hdec => ?_⟩
  · exact (decode_packReq_tlen (by decide) tlen 0 g).trans (decode_encode (i := .decu g) rfl)
  · obtain ⟨n, hv⟩ := chunkValue_ok_of_st_ok (.inr rfl) hval hst
    obtain ⟨d0, d1, d2, d3, d4, hdigits, hsum⟩ := hasDigits_of_chunkValue_ok hv
    have hle : n ≤ MAX32 := (encodeValue_of_chunkValue_ok hv).1
    refine ⟨d0, d1, d2, d3, d4, hdigits, completes_of_eq (exec_decu_of_chunkValue_ok hv s) ⟨rfl, rfl, ?_, ?_⟩⟩
    · rw [front_dout_deliverBytes_bytes4, be32_bytesBe32 hle, hsum]
    · rw [dec_out_of_chunkValue_ok hdec hv, bytesAt_deliverBytes (by simp), bytesAt_deliverBytes (by simp)]

end Sys2Proof.Machine
end

section
/-! SUPPORT. The tail group by place (R84, R89, R90): a tail padded on the left keeps its value, a value that `r` bytes
can hold has `4 - r` leading zero digits, and a group whose front is overwritten is read place by place. -/

namespace Sys2Proof.Machine

/-! ### The value of a tail (R84) -/

theorem bigEndian_append_singleton (l : List Byte) (b : Byte) :
    bigEndian (l ++ [b]) = bigEndian l * 256 + b.toNat := by
  simp [bigEndian]

theorem bigEndian_lt (l : List Byte) : bigEndian l < 256 ^ l.length := by
  induction l using List.reverseRecOn with
  | nil => decide
  | append_singleton l b ih =>
    have hb := b.isLt
    rw [bigEndian_append_singleton, List.length_append, List.length_singleton, pow_succ]
    omega

/-- Zero bytes on the left leave the value as it is. -/
theorem bigEndian_replicate_zero_append (k : Nat) (l : List Byte) :
    bigEndian (List.replicate k 0 ++ l) = bigEndian l := by
  induction k with
  | zero => rfl
  | succ k ih => exact ih

/-- The low bytes of a value that they can hold spell it. -/
theorem bigEndian_drop_bytesBe32 {n k : Nat} (hk : k ≤ 3) (h : n < 256 ^ (4 - k)) :
    bigEndian ((bytes4 (bytesBe32 n)).drop k) = n := by
  have hn : n ≤ MAX32 := by
    have hpow : 256 ^ (4 - k) ≤ 256 ^ 4 := Nat.pow_le_pow_right (by decide) (by omega)
    rw [MAX32]
    omega
  rw [← bigEndian_replicate_zero_append k, ← bytes4_bytesBe32_of_lt hk h, ← be32_eq_bigEndian, be32_bytesBe32 hn]

/-- The chunk that `TENC` encodes: the tail with zero bytes on its left (R89). -/
def paddedTail (l : List Byte) : Byte4 := toByte4 (List.replicate (4 - l.length) 0 ++ l)

theorem bytes4_paddedTail {l : List Byte} (h : IsTail l) :
    bytes4 (paddedTail l) = List.replicate (4 - l.length) 0 ++ l := by
  obtain ⟨-, hhi⟩ := h
  exact bytes4_toByte4 (by rw [List.length_append, List.length_replicate]; omega)

theorem be32_paddedTail {l : List Byte} (h : IsTail l) : be32 (paddedTail l) = bigEndian l := by
  rw [be32_eq_bigEndian, bytes4_paddedTail h, bigEndian_replicate_zero_append]

theorem encodeChunk_paddedTail {l : List Byte} (h : IsTail l) :
    encodeChunk (paddedTail l) = encodeValue (bigEndian l) := by
  rw [encodeChunk, be32_paddedTail h]

/-! ### The digits of a tail's value (R90) -/

/-- `r` bytes hold less than `r + 1` digits do, so the places before the last `r + 1` are zero. -/
theorem digit_eq_zero_of_lt {n r i : Nat} (hr : r ≤ 3) (hn : n < 256 ^ r) (hi : i < 4 - r) : digit n i = 0 := by
  have hpow : ∀ m ≤ 3, 256 ^ m ≤ 85 ^ (m + 1) := by decide
  have hplace : 85 ^ (r + 1) ≤ 85 ^ (4 - i) := Nat.pow_le_pow_right (by decide) (by omega)
  rw [digit, Nat.div_eq_of_lt (hn.trans_le ((hpow r hr).trans hplace))]

/-- `r` bytes hold less than `83 * 85^r`, so the first of the last `r + 1` digits is not that of `'#'` (R87; log 14). -/
theorem digit_le_of_lt {n r : Nat} (hr : r ≤ 3) (hn : n < 256 ^ r) : digit n (4 - r) ≤ 82 := by
  have hpow : ∀ m ≤ 3, 256 ^ m ≤ 85 ^ m * 83 := by decide
  have hplace : 4 - (4 - r) = r := by omega
  have hdiv : n / 85 ^ r < 83 := Nat.div_lt_of_lt_mul (hn.trans_le (hpow r hr))
  rw [digit, hplace]
  exact (Nat.mod_le _ _).trans (Nat.le_of_lt_succ hdiv)

/-! ### A group whose front is overwritten -/

theorem getElem?_overwriteFront_replicate {k : Nat} (hk : k ≤ 5) (c : Byte) (g : Byte5) (i : Nat) :
    (bytes5 (overwriteFront (List.replicate k c) g))[i]? = if i < k then some c else (bytes5 g)[i]? := by
  rw [bytes5_overwriteFront (by simpa using hk), List.length_replicate]
  by_cases hi : i < k
  · rw [List.getElem?_append_left (by simpa using hi), List.getElem?_replicate, if_pos hi, if_pos hi]
  · have hsum : k + (i - k) = i := by omega
    rw [List.getElem?_append_right (by simpa using hi), List.length_replicate, List.getElem?_drop, hsum, if_neg hi]

theorem getElem?_rewriteTail {k : Nat} (hk : k ≤ 5) (g : Byte5) (i : Nat) :
    (bytes5 (rewriteTail k g))[i]? = if i < k then some zeroCh else (bytes5 g)[i]? :=
  getElem?_overwriteFront_replicate hk zeroCh g i

/-- `TENC`'s group by place: sentinels, then the group of the padded chunk (R89). -/
theorem getElem?_encodeTail (l : List Byte) (i : Nat) :
    (bytes5 (encodeTail l))[i]? =
      if i < 4 - l.length then some SENTINEL else (bytes5 (encodeChunk (paddedTail l)))[i]? :=
  getElem?_overwriteFront_replicate (by omega) SENTINEL (encodeChunk (paddedTail l)) i

/-- The characters that `TENC` overwrites are zero digits (R90). -/
theorem getElem?_encodeChunk_paddedTail_of_lt {l : List Byte} (h : IsTail l) {i : Nat} (hi : i < 4 - l.length) :
    (bytes5 (encodeChunk (paddedTail l)))[i]? = some zeroCh := by
  rw [encodeChunk_paddedTail h, getElem?_bytes5_encodeValue _ (by omega),
    digit_eq_zero_of_lt h.2 (bigEndian_lt l) hi, zeroCh]

/-- Writing zero digits back over the sentinels of `TENC`'s group gives the group of the padded chunk (R92). -/
theorem rewriteTail_encodeTail {l : List Byte} (h : IsTail l) :
    rewriteTail (4 - l.length) (encodeTail l) = encodeChunk (paddedTail l) := by
  refine bytes5_injective (List.ext_getElem? fun i => ?_)
  rw [getElem?_rewriteTail (by omega), getElem?_encodeTail]
  by_cases hi : i < 4 - l.length
  · rw [if_pos hi, getElem?_encodeChunk_paddedTail_of_lt h hi]
  · rw [if_neg hi, if_neg hi]

/-! ### The count of leading sentinels (R85) -/

/-- The run of leading sentinels ends before the first byte that is none. -/
theorem sentinelRun_eq_of_getElem? {l : List Byte} {k : Nat} (hrun : ∀ j, j < k → l[j]? = some SENTINEL)
    (hend : l[k]? ≠ some SENTINEL) : sentinelRun l = k := by
  induction l generalizing k with
  | nil =>
    cases k with
    | zero => rfl
    | succ k => exact absurd (hrun 0 k.succ_pos) (by simp)
  | cons c cs ih =>
    cases k with
    | zero => exact if_neg fun hc => hend (congrArg some hc)
    | succ k =>
      have hc : c = SENTINEL := Option.some.inj (hrun 0 k.succ_pos)
      have hcs : sentinelRun cs = k := ih (fun j hj => hrun (j + 1) (Nat.succ_lt_succ hj)) hend
      rw [sentinelRun, if_pos hc, hcs]

theorem StartsWithSentinels.sentinelCount_eq {g : Byte5} {k : Nat} (h : StartsWithSentinels g k) :
    sentinelCount g = k := by
  obtain ⟨-, hrun, hend⟩ := h
  exact sentinelRun_eq_of_getElem? hrun hend

/-- `TENC` makes exactly `4 - r` leading sentinels: the digit behind them is too small to be one (R87). -/
theorem startsWithSentinels_encodeTail {l : List Byte} (h : IsTail l) :
    StartsWithSentinels (encodeTail l) (4 - l.length) := by
  have ⟨hlo, hhi⟩ := h
  refine ⟨by omega, fun j hj => by rw [getElem?_encodeTail, if_pos hj], ?_⟩
  have hne := (alpha_ne_sentinel_or_dollar (digit_le_of_lt hhi (bigEndian_lt l))).1
  rw [getElem?_encodeTail, if_neg (lt_irrefl _), encodeChunk_paddedTail h,
    getElem?_bytes5_encodeValue _ (by omega)]
  exact fun heq => hne (Option.some.inj heq)

theorem sentinelCount_encodeTail {l : List Byte} (h : IsTail l) : sentinelCount (encodeTail l) = 4 - l.length :=
  (startsWithSentinels_encodeTail h).sentinelCount_eq

end Sys2Proof.Machine
end

section
/-! PROOF of `TencDeliversTailGroup` and `TencOverwritesOnlyZeroDigits`: after `TENC` the tail group stands at `DOUT`,
and its places are sentinels or those of the padded chunk's group. -/

namespace Sys2Proof.Machine

/-- `TENC` ends with its tail group delivered, on every tail (R89). -/
theorem exec_tenc {l : List Byte} (h : IsTail l) (s : State) :
    exec (.tenc l) s = complete s (deliverBytes s.draws (bytes5 (encodeTail l))) :=
  if_pos (tailWellFormed_iff.mpr h)

theorem tenc_dout {l : List Byte} {s t : State} (hl : IsTail l) (h : exec (.tenc l) s = .next t) :
    t.out.dout = encodeTail l := by
  obtain rfl := complete_next.mp ((exec_tenc hl s).symm.trans h)
  exact dout_deliverBytes_bytes5 _ _

/-- `TENC` reads `TLEN` bytes of `DIN` and ignores the others (R61). -/
theorem decode_packReq_tenc {l : List Byte} {din : Byte5} (hl : IsTail l) (h : (bytes5 din).take l.length = l) :
    decode (packReq 0x5 (BitVec.ofNat 3 l.length) din) = .ok (.tenc l) := by
  obtain ⟨hlo, hhi⟩ := hl
  have htlen : (BitVec.ofNat 3 l.length).toNat = l.length := Nat.mod_eq_of_lt (by omega)
  have hmem : l.length ∈ [1, 2, 3] := by
    simp only [List.mem_cons, List.not_mem_nil, or_false]
    omega
  have hop : (0x5 : BitVec 4).toNat = 5 := rfl
  simp only [decode, op_packReq, hop, tlen_packReq, din_packReq]
  rw [decodeTenc_eq, htlen, if_pos hmem, h]

/-- Settles O24: the places of the tail group, and the digits of the tail's value behind the sentinels. -/
theorem tencDeliversTailGroup : Obligations.TencDeliversTailGroup := by
  refine fun l s hl => ⟨fun _ hdin => decode_packReq_tenc hl hdin, completes_of_eq (exec_tenc hl s) ?_⟩
  rw [dout_deliverBytes_bytes5]
  refine ⟨rfl, rfl, fun i hi => ?_, fun i hlo hhi => ?_⟩
  · rw [getElem?_encodeTail, if_pos hi]
  · rw [getElem?_encodeTail, if_neg (not_lt.mpr hlo), encodeChunk_paddedTail hl]
    exact getElem?_bytes5_encodeValue (bigEndian l) hhi

/-- Settles O25: the padded chunk's group has zero digits where `TENC`'s has sentinels, and is the same behind them. -/
theorem tencOverwritesOnlyZeroDigits : Obligations.TencOverwritesOnlyZeroDigits := by
  intro l p s t u hl hp henc htenc
  obtain rfl : p = paddedTail l := bytes4_injective (hp.trans (bytes4_paddedTail hl).symm)
  rw [enc_dout henc, tenc_dout hl htenc]
  refine ⟨fun i hi => getElem?_encodeChunk_paddedTail_of_lt hl hi, List.ext_getElem? fun i => ?_⟩
  rw [List.getElem?_drop, List.getElem?_drop, getElem?_encodeTail, if_neg (by omega)]

end Sys2Proof.Machine
end

section
/-! PROOF of `TdetCountsLeadingSentinels` and `TdetIsExactOnTencGroups`: `TDET` drives `DIFF` with the count of leading
sentinels, which is the `k` of `StartsWithSentinels`. -/

namespace Sys2Proof.Machine

/-- What `TDET` drives, on every group (R85). -/
theorem tdet_completes (g : Byte5) (s : State) :
    Completes (.tdet g) s fun o =>
      o.st = .ok ∧ o.olen = 0 ∧ o.diff.toNat = sentinelCount g ∧ (o.istail = true ↔ g.b0 = SENTINEL) :=
  completes_of_eq (i := .tdet g) rfl ⟨rfl, rfl, toNat_ofNat_sentinelCount g, decide_eq_true_iff⟩

/-- Settles O23: the count of the leading sentinels is the `k` of the group. -/
theorem tdetCountsLeadingSentinels : Obligations.TdetCountsLeadingSentinels := by
  refine fun g s => ⟨fun tlen => ?_, fun k hk => hk.sentinelCount_eq ▸ tdet_completes g s⟩
  exact (decode_packReq_tlen (by decide) tlen 0 g).trans (decode_encode (i := .tdet g) rfl)

/-- Settles O26: `TENC`'s group starts with exactly `4 - r` sentinels, of which there is at least one. -/
theorem tdetIsExactOnTencGroups : Obligations.TdetIsExactOnTencGroups := by
  intro l s t hl h
  obtain ⟨-, hrun, -⟩ := startsWithSentinels_encodeTail hl
  have hfirst : (encodeTail l).b0 = SENTINEL := Option.some.inj (hrun 0 (Nat.sub_pos_of_lt (Nat.lt_succ_of_le hl.2)))
  rw [tenc_dout hl h]
  refine (tdet_completes (encodeTail l) t).imp fun o ⟨_, _, hdiff, histail⟩ => ?_
  exact ⟨histail.mpr hfirst, hdiff.trans (sentinelCount_encodeTail hl)⟩

end Sys2Proof.Machine
end

section
/-! PROOF of `TdecChecksAndDecodes` and `TailRoundTrip`: the tail decoder by its tests in the order of R93, what the
rewritten copy has in common with the group, and how `TDEC` ends on each result. -/

namespace Sys2Proof.Machine

/-! ### The tests of the tail decoder (R93) -/

theorem decodeTail_of_count {g : Byte5} (h : sentinelCount g < 1 ∨ 3 < sentinelCount g) :
    decodeTail g = .error .invalidTail :=
  if_pos h

theorem decodeTail_of_chunkValue_error {g : Byte5} {e : Error} (hlo : 1 ≤ sentinelCount g) (hhi : sentinelCount g ≤ 3)
    (h : chunkValue (rewriteTail (sentinelCount g) g) = .error e) : decodeTail g = .error e := by
  simp [decodeTail, DIFF_MIN, DIFF_MAX, Nat.ne_of_gt hlo, hhi, h]

theorem decodeTail_of_chunkValue_ok {g : Byte5} {n : Nat} (hlo : 1 ≤ sentinelCount g) (hhi : sentinelCount g ≤ 3)
    (h : chunkValue (rewriteTail (sentinelCount g) g) = .ok n) :
    decodeTail g = if 256 ^ (4 - sentinelCount g) - 1 < n then .error .invalidTail
      else .ok ((bytes4 (bytesBe32 n)).drop (sentinelCount g)) := by
  simp [decodeTail, DIFF_MIN, DIFF_MAX, Nat.ne_of_gt hlo, hhi, h]

/-! ### The rewritten copy (R92) -/

/-- A sentinel is a valid byte, so the leftmost invalid byte stands behind the sentinels, where the copy has it too. -/
theorem FirstInvalid.rewriteTail {g : Byte5} {k i : Nat} {c : Byte} (hk : StartsWithSentinels g k)
    (h : FirstInvalid g i c) : FirstInvalid (rewriteTail k g) i c := by
  obtain ⟨hk5, hrun, -⟩ := hk
  obtain ⟨hc, hbad, hmin⟩ := h
  have hsentinel : inv SENTINEL ≠ none := by decide
  have hzero : inv zeroCh ≠ none := by decide
  have hki : ¬ i < k := fun hik => by
    obtain rfl : SENTINEL = c := Option.some.inj ((hrun i hik).symm.trans hc)
    exact hsentinel hbad
  refine ⟨by rw [getElem?_rewriteTail hk5, if_neg hki, hc], hbad, fun j b hj hb => ?_⟩
  rw [getElem?_rewriteTail hk5] at hb
  by_cases hjk : j < k
  · obtain rfl : zeroCh = b := Option.some.inj ((if_pos hjk).symm.trans hb)
    exact hzero
  · exact hmin j b hj ((if_neg hjk).symm.trans hb)

/-- The digits of the copy: zero at the places of the sentinels, those of the group behind them. -/
theorem HasDigits.rewriteTail {g : Byte5} {k d0 d1 d2 d3 d4 : Nat} (hlo : 1 ≤ k) (hhi : k ≤ 3)
    (h : HasDigits g d0 d1 d2 d3 d4) :
    HasDigits (rewriteTail k g) 0 (if 2 ≤ k then 0 else d1) (if 3 ≤ k then 0 else d2) d3 d4 := by
  obtain ⟨-, h1, h2, h3, h4⟩ := h
  have hzero : inv zeroCh = some 0 := inv_alpha (by decide)
  obtain rfl | rfl | rfl : k = 1 ∨ k = 2 ∨ k = 3 := by omega
  · exact ⟨hzero, h1, h2, h3, h4⟩
  · exact ⟨hzero, hzero, h2, h3, h4⟩
  · exact ⟨hzero, hzero, hzero, h3, h4⟩

/-- Four digits are less than a chunk value can be: the copy never fails the range test of the chunk decoder. -/
theorem chunkValue_of_hasDigits_zero {g : Byte5} {d1 d2 d3 d4 : Nat} (h : HasDigits g 0 d1 d2 d3 d4) :
    chunkValue g = .ok (digitSum 0 d1 d2 d3 d4) := by
  obtain ⟨-, h1, h2, h3, h4⟩ := h.lt_RADIX
  refine chunkValue_of_hasDigits h ?_
  rw [← not_lt, MAX32_lt_digitSum_iff h1 h2 h3 h4]
  omega

/-! ### How `TDEC` ends -/

theorem exec_tdec_of_error {g : Byte5} {e : Error} (h : decodeTail g = .error e) (s : State) :
    exec (.tdec g) s = complete s { raise .chunk e s.draws with diff := BitVec.ofNat 3 (sentinelCount g) } := by
  rw [exec, execTdec, h]

theorem exec_tdec_of_ok {g : Byte5} {l : List Byte} (h : decodeTail g = .ok l) (s : State) :
    exec (.tdec g) s = complete s { deliverBytes s.draws l with diff := BitVec.ofNat 3 (sentinelCount g) } := by
  rw [exec, execTdec, h]

theorem tdec_completes_of_invalidTail {g : Byte5} (h : decodeTail g = .error .invalidTail) (s : State) :
    Completes (.tdec g) s fun o => o.st = .invalidTail ∧ o.olen = 0 ∧ o.diff.toNat = sentinelCount g :=
  completes_of_eq (exec_tdec_of_error h s) ⟨rfl, rfl, toNat_ofNat_sentinelCount g⟩

theorem tdec_completes_of_invalidByte {g : Byte5} {i : Nat} {c : Byte} (h : decodeTail g = .error (.invalidByte i c))
    (s : State) :
    Completes (.tdec g) s fun o =>
      o.st = .invalidByte ∧ o.epos.toNat = i ∧ o.ebyte = c ∧ o.olen = 0 ∧ o.diff.toNat = sentinelCount g := by
  have hi : i ≤ 4 := decodeTail_error_isLocal h
  have hepos : (BitVec.ofNat 3 i).toNat = i := Nat.mod_eq_of_lt (by omega)
  exact completes_of_eq (exec_tdec_of_error h s) ⟨rfl, hepos, rfl, rfl, toNat_ofNat_sentinelCount g⟩

theorem tdec_completes_of_ok {g : Byte5} {l : List Byte} (h : decodeTail g = .ok l) (s : State) :
    Completes (.tdec g) s fun o =>
      o.st = .ok ∧ o.olen.toNat = l.length ∧ o.diff.toNat = sentinelCount g ∧ bytesAt .chunk o = l := by
  have hlen : l.length ≤ 5 := (congrArg FitsChunkPorts h).mp (decodeTail_fitsChunkPorts g)
  have holen : (BitVec.ofNat 3 l.length).toNat = l.length := Nat.mod_eq_of_lt (by omega)
  exact completes_of_eq (exec_tdec_of_ok h s)
    ⟨rfl, holen, toNat_ofNat_sentinelCount g, bytesAt_deliverBytes hlen s.draws⟩

/-- With status `OK` after `TDEC`, the bytes at the ports are what the group decodes to. -/
theorem decodeTail_ok_of_st_ok {g : Byte5} {s t : State} (h : exec (.tdec g) s = .next t) (hst : t.out.st = .ok) :
    decodeTail g = .ok (bytesAt .chunk t.out) := by
  cases hd : decodeTail g with
  | error e =>
    obtain rfl := complete_next.mp ((exec_tdec_of_error hd s).symm.trans h)
    exact absurd ((raise_st .chunk e s.draws).symm.trans hst) (errorStatus_ne_ok e)
  | ok l =>
    obtain ⟨u, hu, ⟨-, -, -, hbytes⟩, -⟩ := tdec_completes_of_ok hd s
    obtain rfl : u = t := Host.Outcome.next.inj (hu.symm.trans h)
    rw [hbytes]

/-- Settles O27: the count, then the first invalid byte, then the value of the digits with zeros for sentinels. -/
theorem tdecChecksAndDecodes : Obligations.TdecChecksAndDecodes := by
  intro g s k hk
  obtain rfl := hk.sentinelCount_eq
  refine ⟨fun tlen => ?_, fun hcount => ?_, fun hlo hhi => ⟨fun i c hbad => ?_, fun d0 d1 d2 d3 d4 hdigits => ?_⟩⟩
  · exact (decode_packReq_tlen (by decide) tlen 0 g).trans (decode_encode (i := .tdec g) rfl)
  · exact tdec_completes_of_invalidTail (decodeTail_of_count hcount) s
  · have hv := chunkValue_of_firstInvalid (hbad.rewriteTail hk)
    exact tdec_completes_of_invalidByte (decodeTail_of_chunkValue_error hlo hhi hv) s
  · have hdec := decodeTail_of_chunkValue_ok hlo hhi (chunkValue_of_hasDigits_zero (hdigits.rewriteTail hlo hhi))
    refine ⟨fun hlarge => ?_, fun hfits => ?_⟩
    · exact tdec_completes_of_invalidTail (hdec.trans (if_pos hlarge)) s
    · refine (tdec_completes_of_ok (hdec.trans (if_neg (not_lt.mpr hfits))) s).imp
        fun o ⟨hst, holen, hdiff, hbytes⟩ => ⟨hst, by simpa using holen, hdiff, ?_⟩
      have hpos : 0 < 256 ^ (4 - sentinelCount g) := by positivity
      rw [hbytes]
      exact bigEndian_drop_bytesBe32 hhi (by omega)

/-! ### The round trip (R95) -/

/-- The tail group of a tail decodes to the tail. -/
theorem decodeTail_encodeTail {l : List Byte} (h : IsTail l) : decodeTail (encodeTail l) = .ok l := by
  have ⟨hlo, hhi⟩ := h
  have hcount := sentinelCount_encodeTail h
  have hlen : 4 - (4 - l.length) = l.length := by omega
  have hv : chunkValue (rewriteTail (sentinelCount (encodeTail l)) (encodeTail l)) = .ok (be32 (paddedTail l)) := by
    rw [hcount, rewriteTail_encodeTail h, chunkValue_encodeChunk]
  have hfits : ¬ 256 ^ l.length - 1 < be32 (paddedTail l) := by
    have := bigEndian_lt l
    rw [be32_paddedTail h]
    omega
  rw [decodeTail_of_chunkValue_ok (by omega) (by omega) hv, hcount, hlen, if_neg hfits, bytesBe32_be32,
    bytes4_paddedTail h, List.drop_left' List.length_replicate]

/-- Settles O28: `decodeTail_encodeTail` and `encodeTail_of_decodeTail_ok`, each at the ports. -/
theorem tailRoundTrip : Obligations.TailRoundTrip := by
  refine ⟨fun l s t hl henc => ?_, fun g s t hdec hst => ?_⟩
  · rw [tenc_dout hl henc]
    refine (tdec_completes_of_ok (decodeTail_encodeTail hl) t).imp fun o ⟨hst, _, hdiff, hbytes⟩ => ?_
    exact ⟨hst, hbytes, hdiff.trans (sentinelCount_encodeTail hl)⟩
  · have hd := decodeTail_ok_of_st_ok hdec hst
    have htail : IsTail (bytesAt .chunk t.out) := by
      obtain ⟨e, he, -⟩ | ⟨l, hl, -, htail⟩ := decodeTail_cases g
      · cases hd.symm.trans he
      · exact Except.ok.inj (hl.symm.trans hd) ▸ htail
    refine ⟨htail, completes_of_eq (exec_tenc htail t) ?_⟩
    rw [dout_deliverBytes_bytes5, encodeTail_of_decodeTail_ok hd]

end Sys2Proof.Machine
end

section
/-! SUPPORT. The decoder undoes the encoder on everything that the encoder makes: on a loop's chunks, on whole chunks
read by either variant, on whole chunks with a tail behind them (R104, R109); and why the strict decoder stops at a tail
group (R103, R104). -/

namespace Sys2Proof.Machine

/-! ### A loop's chunks -/

/-- The groups that a loop makes decode to the bytes they came from. -/
theorem decodeGroups_encodeChunks {buf : List Byte} {k ci : Nat} (h : 4 * (ci + k) ≤ buf.length) :
    decodeGroups (encodeChunks buf k ci) k 0 = .ok (memRead buf (4 * ci) (4 * k)) := by
  induction k generalizing ci with
  | zero => simp [decodeGroups, memRead]
  | succ k ih =>
    have hfirst : groupAt (encodeChunks buf (k + 1) ci) (5 * 0) = encodeChunk (chunkAt buf (4 * ci)) :=
      (congrArg toByte5 (memRead_length_append (bytes5 _) _)).trans (toByte5_bytes5 _)
    have hrest : decodeGroups (encodeChunks buf (k + 1) ci) k 1 = .ok (memRead buf (4 * (ci + 1)) (4 * k)) := by
      rw [encodeChunks, decodeGroups_append_right (n := 1) (bytes5_length _) _ k 0, ih (by omega), Except.mapError]
    have hsplit : 4 * (k + 1) = 4 + 4 * k := by omega
    refine decodeGroups_succ_ok.mpr ⟨_, _, hfirst ▸ decodeChunk_encodeChunk _, hrest, ?_⟩
    rw [bytes4_chunkAt (by omega), hsplit, memRead_add, Nat.mul_succ]

/-- `DECS` gives back the chunks that `ENC` has encoded (R109). -/
theorem decodeStrict_encodeChunks {buf : List Byte} (h : buf.length % 4 = 0) :
    decodeStrict (encodeChunks buf (buf.length / 4) 0) = .ok buf := by
  have hlen := encodeChunks_length buf (buf.length / 4) 0
  have hdiv : (encodeChunks buf (buf.length / 4) 0).length / 5 = buf.length / 4 := by omega
  rw [decodeStrict_of_whole_groups (by omega), hdiv, decodeGroups_encodeChunks (by omega), memRead, Nat.mul_zero,
    List.drop_zero, List.take_of_length_le (by omega)]

/-! ### The last group -/

/-- The first byte of a group is that of the buffer at the group's offset. -/
theorem isTail_groupAt {buf : List Byte} {off : Nat} (h : off + 5 ≤ buf.length) :
    isTail (groupAt buf off) = true ↔ buf[off]? = some SENTINEL := by
  have hbyte : some (groupAt buf off).b0 = buf[off]? := by
    have hread := congrArg (·[0]?) (bytes5_groupAt h)
    rwa [getElem?_memRead buf off (by decide), Nat.add_zero] at hread
  rw [isTail, decide_eq_true_iff, ← hbyte, Option.some_inj]

/-- No group of a chunk can be taken for a tail group (R69, R103). -/
theorem isTail_encodeChunk (c : Byte4) : isTail (encodeChunk c) = false := by
  have hfirst : (encodeChunk c).b0 = alpha (digit (be32 c) 0) := by rw [encodeChunk, encodeValue_eq]
  have hne := (alpha_ne_sentinel_or_dollar (digit_zero_le (be32_le_MAX32 c))).1
  rw [isTail, hfirst, decide_eq_false hne]

theorem isTail_encodeTail {l : List Byte} (h : IsTail l) : isTail (encodeTail l) = true := by
  obtain ⟨-, hrun, -⟩ := startsWithSentinels_encodeTail h
  obtain ⟨-, hhi⟩ := h
  have hfirst : (encodeTail l).b0 = SENTINEL := Option.some.inj (hrun 0 (by omega))
  rw [isTail, decide_eq_true hfirst]

/-- A text that ends in the group `g`, as `DECP` looks at it. -/
theorem groupAt_last (buf : List Byte) (g : Byte5) :
    groupAt (buf ++ bytes5 g) ((buf ++ bytes5 g).length - 5) = g := by
  rw [List.length_append, bytes5_length, Nat.add_sub_cancel, ← Nat.add_zero buf.length, groupAt_append_right]
  exact toByte5_bytes5 g

/-- `DECP` on whole groups before a tail group: the error of `DECS` on them, else that of `TDEC`, rebased, else the two
results one after the other (R102). -/
theorem decodePadded_append_tail {buf : List Byte} {g : Byte5} (h : buf.length % 5 = 0) (hg : isTail g = true) :
    decodePadded (buf ++ bytes5 g) =
      (decodeStrict buf).bind fun l => ((decodeTail g).mapError (Error.rebase buf.length)).map (l ++ ·) := by
  have hlen : (buf ++ bytes5 g).length = buf.length + 5 := by rw [List.length_append, bytes5_length]
  have hlast := groupAt_last buf g
  have hbody : decodeGroups (buf ++ bytes5 g) ((buf ++ bytes5 g).length / 5 - 1) 0 = decodeStrict buf := by
    have hcount : (buf ++ bytes5 g).length / 5 - 1 = buf.length / 5 := by omega
    rw [hcount, decodeGroups_append_left (by omega), decodeStrict_of_whole_groups h]
  have hoff : (buf ++ bytes5 g).length - 5 = buf.length := by omega
  have hcases := decodePadded_tail_cases (buf := buf ++ bytes5 g) (by omega) (by rw [ENC_W]; omega) (by rwa [hlast])
  rw [hlast, ENC_W, hbody, hoff] at hcases
  obtain ⟨e, hd, hp⟩ | ⟨l, hd, ⟨e, hdt, hp⟩ | ⟨tail, hdt, hp⟩⟩ := hcases
  · rw [hp, hd, Except.bind]
  · rw [hp, hd, hdt]
    rfl
  · rw [hp, hd, hdt]
    rfl

/-! ### Whole buffers -/

/-- `DECP` reads what `ENCS` makes: its last group is the group of a chunk (R104 (b)). -/
theorem decodePadded_encodeChunks {buf : List Byte} (h : buf.length % 4 = 0) :
    decodePadded (encodeChunks buf (buf.length / 4) 0) = .ok buf := by
  have hlen := encodeChunks_length buf (buf.length / 4) 0
  rw [decodePadded_eq_decodeStrict, decodeStrict_encodeChunks h]
  obtain hzero | hpos := Nat.eq_zero_or_pos (encodeChunks buf (buf.length / 4) 0).length
  · exact .inl hzero
  · have hoff : (encodeChunks buf (buf.length / 4) 0).length - 5 = 5 * (buf.length / 4 - 1) := by omega
    refine .inr (.inr ?_)
    rw [hoff, groupAt, ENC_W, memRead_encodeChunks _ _ (by omega), toByte5_bytes5, isTail_encodeChunk]

/-- A buffer that is no whole number of chunks is whole chunks with a tail behind them (R84). -/
theorem exists_chunks_append_tail {buf : List Byte} (h : buf.length % 4 ≠ 0) :
    ∃ front tail, buf = front ++ tail ∧ front.length % 4 = 0 ∧ front.length / 4 = buf.length / 4 ∧ IsTail tail := by
  refine ⟨buf.take (4 * (buf.length / 4)), buf.drop (4 * (buf.length / 4)), (List.take_append_drop _ _).symm, ?_⟩
  rw [IsTail, List.length_take, List.length_drop]
  omega

/-- `DECP` undoes `ENCP` on every buffer (R109, R104 (a)). -/
theorem decodePadded_encodePadded (buf : List Byte) : decodePadded (encodePadded buf) = .ok buf := by
  by_cases h : buf.length % 4 = 0
  · rw [encodePadded_of_whole_chunks h, decodePadded_encodeChunks h]
  · obtain ⟨front, tail, rfl, hmod, -, htail⟩ := exists_chunks_append_tail h
    have hlen := encodeChunks_length front (front.length / 4) 0
    rw [encodePadded_append_tail hmod htail, decodePadded_append_tail (by omega) (isTail_encodeTail htail),
      decodeStrict_encodeChunks hmod, decodeTail_encodeTail htail]
    rfl

end Sys2Proof.Machine
end

section
/-! PROOF of `StrictRoundTrip` and `PaddedRoundTrip`: the text that stands at `OBUF` after encoding is decoded. -/

namespace Sys2Proof.Machine

/-- Settles O37: `decodeStrict_encodeChunks`, at the ports. -/
theorem strictRoundTrip : Obligations.StrictRoundTrip := by
  intro b s hlen
  refine ⟨_, congrArg (completeBuffer _) (encodeStrict_of_whole_chunks hlen), rfl, ?_⟩
  exact completes_of_eq (congrArg (completeBuffer _) (decodeStrict_encodeChunks hlen)) ⟨rfl, rfl⟩

/-- Settles O38: `decodePadded_encodePadded`, at the ports. -/
theorem paddedRoundTrip : Obligations.PaddedRoundTrip := fun b _ =>
  ⟨_, rfl, rfl, completes_of_eq (congrArg (completeBuffer _) (decodePadded_encodePadded b)) ⟨rfl, rfl⟩⟩

end Sys2Proof.Machine
end

section
/-! SUPPORT. What stands at the ports after a result, and what the result was by what stands there: how a sequencer
operation reads after the chunk operations of its groups (R98, R118). -/

namespace Sys2Proof.Machine

/-! ### The word -/

/-- A sequencer operation ignores `TLEN` and `DIN` (R61). -/
theorem decode_packReq_sequencer {i : Instr} (h : formatOf i = .sequencer) (tlen : BitVec 3) (din : Byte5) :
    decode (packReq i.opcode tlen din) = .ok i := by
  cases i with
  | enc | dec | val | decu | tdet | tenc | tdec => cases h
  | encs | decs | encp | decp | vals | decus => simp [decode, Instr.opcode]

/-! ### From the ports to the result -/

theorem errorAt_eq_none_iff {format : Format} {o : Outputs} : errorAt format o = none ↔ o.st = .ok := by
  refine ⟨fun h => ?_, errorAt_eq_none⟩
  cases ho : o.st with
  | ok => rfl
  | invalidLength | invalidByte | invalidChunk | invalidTail => cases format <;> simp [errorAt, ho] at h

theorem Shows.ok {format : Format} {res : Except Error (List Byte)} {o : Outputs} (h : Shows format res o)
    (hst : o.st = .ok) : res = .ok (bytesAt format o) := by
  obtain ⟨herror, hbytes⟩ := h
  rw [errorAt_eq_none hst] at herror
  cases res with
  | ok l => rw [hbytes, bytesOf]
  | error e => cases herror

theorem Shows.error {format : Format} {res : Except Error (List Byte)} {o : Outputs} (h : Shows format res o)
    (hst : o.st ≠ .ok) : ∃ e, res = .error e ∧ errorAt format o = some e := by
  obtain ⟨herror, -⟩ := h
  cases res with
  | ok l => exact absurd (errorAt_eq_none_iff.mp herror) hst
  | error e => exact ⟨e, rfl, herror⟩

theorem dec_shows {g : Byte5} {s t : State} (h : exec (.dec g) s = .next t) : Shows .chunk (decodeChunk g) t.out :=
  exec_shows (i := .dec g) trivial h

theorem tdec_shows {g : Byte5} {s t : State} (h : exec (.tdec g) s = .next t) : Shows .chunk (decodeTail g) t.out :=
  exec_shows (i := .tdec g) trivial h

/-- Where every `DEC` of the group ends with `OK`, the group decodes. -/
theorem exists_decodeChunk_ok {g : Byte5} {s : State} (h : ∀ v, exec (.dec g) s = .next v → v.out.st = .ok) :
    ∃ l, decodeChunk g = .ok l := by
  obtain ⟨o, ho⟩ := exec_eq_complete (i := .dec g) rfl s
  exact ⟨_, (dec_shows ho).ok (h _ ho)⟩

theorem exists_eq_invalidChunk {e : Error} (h : e.status = .invalidChunk) : ∃ p, e = .invalidChunk p := by
  cases e with
  | invalidChunk p => exact ⟨p, rfl⟩
  | invalidLength | invalidByte | invalidTail => cases h

/-- The errors that the ports of a chunk operation can report (R18, R120). -/
theorem errorAt_chunk_cases {o : Outputs} {e : Error} (h : errorAt .chunk o = some e) :
    (o.st = .invalidLength ∧ e = .invalidLength o.elen) ∨
    (o.st = .invalidByte ∧ e = .invalidByte o.epos.toNat o.ebyte) ∨
    (o.st = .invalidChunk ∧ e = .invalidChunk o.epos.toNat) ∨
    (o.st = .invalidTail ∧ e = .invalidTail) := by
  cases ho : o.st with
  | ok => cases (errorAt_eq_none ho).symm.trans h
  | invalidLength | invalidByte | invalidChunk | invalidTail => simpa [errorAt, ho, eq_comm] using h

/-- After a sequencer operation has rebased the error that a chunk operation left at the ports `o`, the ports report it
at the absolute position (R98). -/
theorem raise_rebase_of_errorAt {o : Outputs} {e : Error} (h : errorAt .chunk o = some e) (base n : Nat) :
    (raise .sequencer (e.rebase base) n).st = o.st ∧
    (o.st = .invalidByte ∨ o.st = .invalidChunk →
      (raise .sequencer (e.rebase base) n).eposAbs = base + o.epos.toNat) ∧
    (o.st = .invalidByte → (raise .sequencer (e.rebase base) n).ebyte = o.ebyte) := by
  obtain ⟨ho, rfl⟩ | ⟨ho, rfl⟩ | ⟨ho, rfl⟩ | ⟨ho, rfl⟩ := errorAt_chunk_cases h
  · exact ⟨ho.symm, by simp [ho], by simp [ho]⟩
  · exact ⟨ho.symm, fun _ => rfl, fun _ => rfl⟩
  · exact ⟨ho.symm, fun _ => rfl, by simp [ho]⟩
  · exact ⟨ho.symm, by simp [ho], by simp [ho]⟩

theorem Error.status_rebase (e : Error) (base : Nat) : (e.rebase base).status = e.status := by cases e <;> rfl

theorem completeBuffer_ok_olenS {s t : State} {res : Except Error (List Byte)} (h : completeBuffer s res = .next t)
    (hst : t.out.st = .ok) : t.out.olenS = t.out.obuf.length := by
  obtain ⟨l, rfl, rfl⟩ | ⟨e, -, rfl⟩ := completeBuffer_next.mp h
  · rfl
  · exact absurd ((raise_st _ _ _).symm.trans hst) (errorStatus_ne_ok e)

/-! ### The operations by their results -/

theorem exec_vals_of_decodeStrict_ok {s : State} {l : List Byte} (h : decodeStrict s.inp.ibuf = .ok l) :
    exec .vals s = complete s (deliverNoBuffer s.draws) := by
  rw [exec, execVals, validateStrict_eq_map_decodeStrict, h, Except.map]

theorem exec_vals_of_decodeStrict_error {s : State} {e : Error} (h : decodeStrict s.inp.ibuf = .error e) :
    exec .vals s = complete s (raise .sequencer e s.draws) := by
  rw [exec, execVals, validateStrict_eq_map_decodeStrict, h, Except.map]

/-- The length test of the three checked decoders (R111). -/
theorem completes_of_cut_group {i : Instr} {s : State} (hi : i ∈ [.decs, .decp, .vals])
    (h : s.inp.ibuf.length % 5 ≠ 0) :
    Completes i s fun o => o.st = .invalidLength ∧ o.elen = s.inp.ibuf.length ∧ o.olenS = 0 := by
  have hdecs := decodeStrict_of_cut_group h
  have hdecp := (decodePadded_eq_decodeStrict (.inr (.inl h))).trans hdecs
  simp only [List.mem_cons, List.not_mem_nil, or_false] at hi
  obtain rfl | rfl | rfl := hi
  · exact completes_of_eq (congrArg (completeBuffer s) hdecs) ⟨rfl, rfl, rfl⟩
  · exact completes_of_eq (congrArg (completeBuffer s) hdecp) ⟨rfl, rfl, rfl⟩
  · exact completes_of_eq (exec_vals_of_decodeStrict_error hdecs) ⟨rfl, rfl, rfl⟩

/-- Where the two decoders have the same result, `DECP` reads as `DECS` does. -/
theorem decp_reads_as_decs {s s' u : State} (h : decodePadded s.inp.ibuf = decodeStrict s'.inp.ibuf)
    (hu : exec .decs s' = .next u) : Completes .decp s fun o => reading .decp o = reading .decs u.out := by
  obtain ⟨o, ho⟩ := exec_eq_complete (i := .decp) rfl s
  have hresult : readingOf .decp s.inp.ibuf = readingOf .decs s'.inp.ibuf := by
    simp only [readingOf, resultOf, h, istailOf, diffOf]
  exact completes_of_eq ho
    ((exec_reading (i := .decp) trivial ho).trans (hresult.trans (exec_reading (i := .decs) trivial hu).symm))

end Sys2Proof.Machine
end

section
/-! SUPPORT. The decoding loops by their groups, and the two decoders of a text by its last group (R100, R102). -/

namespace Sys2Proof.Machine

/-! ### The outcomes of one group -/

/-- `DEC` reports a byte or the whole group (R73, R74). -/
theorem decodeChunk_error_status {g : Byte5} {e : Error} (h : decodeChunk g = .error e) :
    e.status = .invalidByte ∨ e.status = .invalidChunk := by
  obtain ⟨i, c, -, hdec⟩ | ⟨-, hdec⟩ | ⟨-, l, hdec⟩ := validateChunk_cases g
  · obtain rfl : e = .invalidByte i c := Except.error.inj (h.symm.trans hdec)
    exact .inl rfl
  · obtain rfl : e = .invalidChunk 0 := Except.error.inj (h.symm.trans hdec)
    exact .inr rfl
  · cases h.symm.trans hdec

/-- The digit of `'#'` alone makes a value too large for a chunk (R103; log 14). -/
theorem decodeChunk_of_sentinel {g : Byte5} {d0 d1 d2 d3 d4 : Nat} (h : HasDigits g d0 d1 d2 d3 d4)
    (hg : g.b0 = SENTINEL) : decodeChunk g = .error (.invalidChunk 0) := by
  have hsentinel : inv SENTINEL = some 84 := by decide
  obtain ⟨hd0, -⟩ := id h
  obtain rfl : d0 = 84 := Option.some.inj (hd0.symm.trans (hg ▸ hsentinel))
  obtain ⟨-, h1, h2, h3, h4⟩ := h.lt_RADIX
  exact decodeChunk_error_iff.mpr
    (chunkValue_of_hasDigits_large h ((MAX32_lt_digitSum_iff h1 h2 h3 h4).mpr (.inl (by decide))))

/-- The copy that `TDEC` reads starts with a zero digit, so its value fits a chunk: `TDEC` reports no `InvalidChunk`
(R93, R103). -/
theorem decodeTail_ne_invalidChunk (g : Byte5) (p : Nat) : decodeTail g ≠ .error (.invalidChunk p) := by
  intro h
  by_cases hk : sentinelCount g < 1 ∨ 3 < sentinelCount g
  · cases (decodeTail_of_count hk).symm.trans h
  obtain ⟨hlo, hhi⟩ : 1 ≤ sentinelCount g ∧ sentinelCount g ≤ 3 := by omega
  obtain ⟨i, c, -, -, hv⟩ | ⟨d0, d1, d2, d3, d4, hdigits, -⟩ := chunkValue_cases (rewriteTail (sentinelCount g) g)
  · cases (decodeTail_of_chunkValue_error hlo hhi hv).symm.trans h
  · have hfirst : (rewriteTail (sentinelCount g) g).b0 = zeroCh :=
      Option.some.inj ((getElem?_rewriteTail (sentinelCount_le g) g 0).trans (if_pos hlo))
    have hzero : inv zeroCh = some 0 := inv_alpha (by decide)
    obtain ⟨hd0, -⟩ := id hdigits
    obtain rfl : d0 = 0 := Option.some.inj (hd0.symm.trans (hfirst ▸ hzero))
    rw [decodeTail_of_chunkValue_ok hlo hhi (chunkValue_of_hasDigits_zero hdigits)] at h
    split at h <;> cases h

/-! ### The loops -/

/-- Groups that decode before one that does not: the loop ends with that one's error (R45, R98). -/
theorem decodeGroups_of_first_error {buf : List Byte} {k ci : Nat} {e : Error} (hci : ci < k)
    (hbefore : ∀ cj, cj < ci → ∃ l, decodeChunk (groupAt buf (5 * cj)) = .ok l)
    (h : decodeChunk (groupAt buf (5 * ci)) = .error e) : decodeGroups buf k 0 = .error (e.rebase (5 * ci)) := by
  have hcases := decodeGroups_cases buf k 0
  simp only [Nat.zero_add] at hcases
  obtain ⟨j, e', -, he', hok, hd⟩ | ⟨ls, -, hok, -⟩ := hcases
  · obtain hlt | rfl | hgt := lt_trichotomy j ci
    · obtain ⟨l, hl⟩ := hbefore j hlt
      cases hl.symm.trans he'
    · obtain rfl : e' = e := Except.error.inj (he'.symm.trans h)
      exact hd
    · obtain ⟨l, hl⟩ := hok ci hgt
      cases hl.symm.trans h
  · obtain ⟨l, -, hl⟩ := hok ci hci
    cases hl.symm.trans h

theorem exists_decodeGroups_ok {buf : List Byte} {k : Nat}
    (h : ∀ cj, cj < k → ∃ l, decodeChunk (groupAt buf (5 * cj)) = .ok l) : ∃ l, decodeGroups buf k 0 = .ok l := by
  obtain ⟨j, e, hj, he, -, -⟩ | ⟨ls, -, -, hd⟩ := decodeGroups_cases buf k 0
  · obtain ⟨l, hl⟩ := h j hj
    rw [Nat.zero_add] at he
    cases hl.symm.trans he
  · exact ⟨_, hd⟩

/-- Where `DEC` decodes a group, the weighted sum of `DECU` is the value it decodes (R81). -/
theorem bytes4_decodeChunkTrusted {g : Byte5} {l : List Byte} (h : decodeChunk g = .ok l) :
    bytes4 (decodeChunkTrusted g) = l := by
  cases hv : chunkValue g with
  | error e => cases (decodeChunk_error_iff.mpr hv).symm.trans h
  | ok n =>
    rw [decodeChunkTrusted, uncheckedValue_of_chunkValue_ok hv]
    exact Except.ok.inj ((decodeChunk_of_chunkValue_ok hv).symm.trans h)

theorem decodeGroupsTrusted_of_decodeGroups_ok {buf : List Byte} {k ci : Nat} {l : List Byte}
    (h : decodeGroups buf k ci = .ok l) : decodeGroupsTrusted buf k ci = l := by
  induction k generalizing ci l with
  | zero => exact Except.ok.inj h
  | succ k ih =>
    obtain ⟨l₀, ls, hd, hs, rfl⟩ := decodeGroups_succ_ok.mp h
    rw [decodeGroupsTrusted, bytes4_decodeChunkTrusted hd, ih hs]

/-! ### Strict texts -/

theorem encodeStrict_of_cut_chunk {buf : List Byte} (h : buf.length % 4 ≠ 0) :
    encodeStrict buf = .error (.invalidLength buf.length) :=
  if_pos h

theorem decodeStrict_ok_length {buf l : List Byte} (h : decodeStrict buf = .ok l) :
    l.length = 4 * (buf.length / 5) := by
  rw [decodeStrict_of_whole_groups (length_mod_of_decodeStrict_ok h)] at h
  exact decodeGroups_ok_length h

theorem decodeStrict_one_group (g : Byte5) :
    decodeStrict (bytes5 g) = (decodeChunk g).mapError (Error.rebase 0) := by
  have hgroup : groupAt (bytes5 g) (5 * 0) = g := toByte5_bytes5 g
  rw [decodeStrict_of_whole_groups (by rw [bytes5_length]), bytes5_length, decodeGroups, hgroup]
  cases decodeChunk g <;> simp [decodeGroups, Except.mapError]

theorem decodeStrict_append_ok {b b' l : List Byte} (hb : b.length % 5 = 0) (hb' : b'.length % 5 = 0)
    (h : decodeStrict (b ++ b') = .ok l) :
    ∃ l₀ l₁, decodeStrict b = .ok l₀ ∧ decodeStrict b' = .ok l₁ ∧ l = l₀ ++ l₁ := by
  rw [decodeStrict_append hb hb'] at h
  cases hd : decodeStrict b with
  | error e => simp [hd, Except.bind] at h
  | ok l₀ =>
    cases hd' : decodeStrict b' with
    | error e => simp [hd, hd', Except.bind, Except.map, Except.mapError] at h
    | ok l₁ => exact ⟨l₀, l₁, rfl, rfl, by simpa [hd, hd', Except.bind, Except.map, Except.mapError] using h.symm⟩

/-- A text that `DECS` accepts, cut between groups, decodes to as much of the result (R108). -/
theorem decodeStrict_take {buf l : List Byte} (h : decodeStrict buf = .ok l) (m : Nat) :
    decodeStrict (buf.take (5 * m)) = .ok (l.take (4 * m)) := by
  have hmod := length_mod_of_decodeStrict_ok h
  obtain hle | hlt := Nat.le_total buf.length (5 * m)
  · have hlen := decodeStrict_ok_length h
    rw [List.take_of_length_le hle, List.take_of_length_le (by omega), h]
  · have hfront : (buf.take (5 * m)).length = 5 * m := List.length_take_of_le hlt
    have hback : (buf.drop (5 * m)).length = buf.length - 5 * m := List.length_drop
    rw [← List.take_append_drop (5 * m) buf] at h
    obtain ⟨l₀, l₁, hd, -, rfl⟩ := decodeStrict_append_ok (by omega) (by omega) h
    have hlen := decodeStrict_ok_length hd
    rw [List.take_left' (by omega), hd]

/-! ### Padded texts -/

/-- A text of whole groups is read by its last group's first byte (R102). -/
theorem decodePadded_of_no_sentinel {buf : List Byte} (hn : 5 ≤ buf.length)
    (h : buf[buf.length - 5]? ≠ some SENTINEL) : decodePadded buf = decodeStrict buf := by
  have htail : ¬ isTail (groupAt buf (buf.length - 5)) = true := fun ht => h ((isTail_groupAt (by omega)).mp ht)
  exact decodePadded_eq_decodeStrict (.inr (.inr (Bool.eq_false_iff.mpr htail)))

theorem take_append_last_group {buf : List Byte} (h : 5 ≤ buf.length) :
    buf.take (buf.length - 5) ++ bytes5 (groupAt buf (buf.length - 5)) = buf := by
  have hlast : (buf.drop (buf.length - 5)).length ≤ 5 := by rw [List.length_drop]; omega
  rw [bytes5_groupAt (by omega), memRead, List.take_of_length_le hlast, List.take_append_drop]

theorem decodePadded_of_sentinel {buf : List Byte} (hn : 5 ≤ buf.length) (hm : buf.length % 5 = 0)
    (h : buf[buf.length - 5]? = some SENTINEL) :
    decodePadded buf = (decodeStrict (buf.take (buf.length - 5))).bind fun l =>
      ((decodeTail (groupAt buf (buf.length - 5))).mapError (Error.rebase (buf.length - 5))).map (l ++ ·) := by
  have hfront : (buf.take (buf.length - 5)).length = buf.length - 5 := List.length_take_of_le (Nat.sub_le _ _)
  have happend := decodePadded_append_tail (buf := buf.take (buf.length - 5)) (by omega)
    ((isTail_groupAt (off := buf.length - 5) (by omega)).mpr h)
  rwa [take_append_last_group hn, hfront] at happend

/-- Groups that decode before one that does not and is not the last: `DECP` ends with its error, whatever the last group
is (R102). -/
theorem decodePadded_of_first_error {buf : List Byte} {ci : Nat} {e : Error} (hm : buf.length % 5 = 0)
    (hci : 5 * ci + 5 < buf.length) (hbefore : ∀ cj, cj < ci → ∃ l, decodeChunk (groupAt buf (5 * cj)) = .ok l)
    (h : decodeChunk (groupAt buf (5 * ci)) = .error e) : decodePadded buf = .error (e.rebase (5 * ci)) := by
  cases ht : isTail (groupAt buf (buf.length - 5)) with
  | false =>
    rw [decodePadded_eq_decodeStrict (.inr (.inr ht)), decodeStrict_of_whole_groups hm]
    exact decodeGroups_of_first_error (by omega) hbefore h
  | true =>
    have hbody : decodeGroups buf (buf.length / ENC_W - 1) 0 = .error (e.rebase (5 * ci)) :=
      decodeGroups_of_first_error (by rw [ENC_W]; omega) hbefore h
    obtain ⟨e', hd, hp⟩ | ⟨l, hd, -⟩ := decodePadded_tail_cases (by omega) hm ht
    · rw [hp, ← hd, hbody]
    · cases hbody.symm.trans hd

theorem sentinelCount_of_not_isTail {g : Byte5} (h : isTail g = false) : sentinelCount g = 0 :=
  if_neg (of_decide_eq_false h)

theorem decodeTail_ok_length {g : Byte5} {l : List Byte} (h : decodeTail g = .ok l) :
    l.length = 4 - sentinelCount g := by
  obtain ⟨-, -, n, -, -, rfl⟩ := decodeTail_ok h
  rw [List.length_drop, bytes4_length]

/-- What `DECP` delivers: four bytes for each group, less one for each leading sentinel of the last (R108). -/
theorem decodePadded_ok_length {buf l : List Byte} (h : decodePadded buf = .ok l) :
    l.length = buf.length / 5 * 4 - (if buf = [] then 0 else sentinelCount (groupAt buf (buf.length - 5))) := by
  by_cases hnil : buf = []
  · subst hnil
    obtain rfl : [] = l := Except.ok.inj h
    rfl
  have hpos := List.length_pos_of_ne_nil hnil
  have hm : buf.length % 5 = 0 := by
    by_contra hm
    rw [decodePadded_eq_decodeStrict (.inr (.inl hm)), decodeStrict_of_cut_group hm] at h
    cases h
  rw [if_neg hnil]
  cases ht : isTail (groupAt buf (buf.length - 5)) with
  | false =>
    rw [decodePadded_eq_decodeStrict (.inr (.inr ht))] at h
    rw [decodeStrict_ok_length h, sentinelCount_of_not_isTail ht, Nat.sub_zero, Nat.mul_comm]
  | true =>
    obtain ⟨e, -, hp⟩ | ⟨body, hd, ⟨e, -, hp⟩ | ⟨tail, hdt, hp⟩⟩ := decodePadded_tail_cases (by omega) hm ht
    · cases h.symm.trans hp
    · cases h.symm.trans hp
    · obtain rfl : l = body ++ tail := Except.ok.inj (h.symm.trans hp)
      have hbody := decodeGroups_ok_length hd
      have htail := decodeTail_ok_length hdt
      obtain ⟨-, hcount, -⟩ := decodeTail_ok hdt
      simp only [ENC_W] at hbody
      rw [List.length_append]
      omega

end Sys2Proof.Machine
end

section
/-! PROOF of `EncsEncodesEveryChunk` and `EncpAppendsTailGroup`: chunk `ci` of the text stands at `5*ci`, and `ENCP`
puts the group of the tail behind the text of the whole chunks. -/

namespace Sys2Proof.Machine

/-- Where four bytes of the buffer are the chunk of an `ENC`, the loop's text holds what that `ENC` delivers. -/
theorem memRead_encodeChunks_eq_dout {buf : List Byte} {k ci : Nat} {c : Byte4} {s u : State} (hci : ci < k)
    (hread : memRead buf (4 * ci) 4 = bytes4 c) (hu : exec (.enc c) s = .next u) :
    memRead (encodeChunks buf k 0) (5 * ci) 5 = bytes5 u.out.dout := by
  have hchunk : chunkAt buf (4 * ci) = c := (congrArg toByte4 hread).trans (toByte4_bytes4 c)
  rw [memRead_encodeChunks _ _ hci, Nat.zero_add, hchunk, enc_dout hu]

/-- Settles O29: the length test, and the text of the whole chunks by its pieces. -/
theorem encsEncodesEveryChunk : Obligations.EncsEncodesEveryChunk := by
  refine fun s => ⟨decode_packReq_sequencer (i := .encs) rfl, fun hcut => ?_, fun hwhole => ?_⟩
  · exact completes_of_eq (congrArg (completeBuffer s) (encodeStrict_of_cut_chunk hcut)) ⟨rfl, rfl, rfl⟩
  · refine completes_of_eq (congrArg (completeBuffer s) (encodeStrict_of_whole_chunks hwhole)) ?_
    exact ⟨rfl, encodeChunks_length _ _ _, rfl, fun _ _ _ hci hread hu => memRead_encodeChunks_eq_dout hci hread hu⟩

/-- The text of a buffer: that of its whole chunks, then the group of the bytes left over (R101). -/
theorem encodePadded_eq (buf : List Byte) :
    encodePadded buf = encodeChunks buf (buf.length / 4) 0 ++
      if buf.length % 4 = 0 then [] else bytes5 (encodeTail (buf.drop (4 * (buf.length / 4)))) := by
  by_cases h : buf.length % 4 = 0
  · rw [encodePadded_of_whole_chunks h, if_pos h, List.append_nil]
  · have htail : memRead buf (4 * (buf.length / 4)) (buf.length % 4) = buf.drop (4 * (buf.length / 4)) :=
      List.take_of_length_le (by rw [List.length_drop]; omega)
    rw [if_neg h, ← htail]
    exact if_pos h

/-- Settles O31: `encodePadded_eq`, at the ports. -/
theorem encpAppendsTailGroup : Obligations.EncpAppendsTailGroup := by
  refine fun s => ⟨decode_packReq_sequencer (i := .encp) rfl, completes_of_eq (i := .encp) rfl ?_⟩
  have hchunks := encodeChunks_length s.inp.ibuf (s.inp.ibuf.length / 4) 0
  simp only [deliverBuffer_st, deliverBuffer_obuf, deliverBuffer_olenS, encodePadded_eq]
  refine ⟨trivial, trivial, ?_, fun ci c u hci hread hu => ?_, fun l u hcut hl hu => ?_⟩
  · rw [List.length_append, hchunks]
    split <;> rfl
  · rw [memRead_append_left (by omega), memRead_encodeChunks_eq_dout hci hread hu]
  · have htail : IsTail l := by
      rw [hl, IsTail, List.length_drop]
      omega
    rw [List.drop_left' hchunks, if_neg hcut, tenc_dout htail hu, hl]

end Sys2Proof.Machine
end

section
/-! PROOF of `DecsDecodesEveryGroup`, `ValsAgreesWithDecs` and `DecusDecodesValidatedBuffers`: the loop of `DECS` by
what `DEC` says of each group, and the two operations that take the same loop. -/

namespace Sys2Proof.Machine

/-- Settles O30: the length test, the first group in error, or the bytes of the groups by their places. -/
theorem decsDecodesEveryGroup : Obligations.DecsDecodesEveryGroup := by
  refine fun s => ⟨decode_packReq_sequencer (i := .decs) rfl, completes_of_cut_group (by decide),
    fun hwhole => ⟨?_, fun hall => ?_⟩⟩
  · intro ci u hci hbefore hu hst
    obtain ⟨e, hdec, herror⟩ := (dec_shows hu).error hst
    have hres : decodeStrict s.inp.ibuf = .error (e.rebase (5 * ci)) := by
      rw [decodeStrict_of_whole_groups hwhole]
      exact decodeGroups_of_first_error hci (fun cj hcj => exists_decodeChunk_ok fun v => hbefore cj v hcj) hdec
    obtain ⟨hraised, hpos, hbyte⟩ := raise_rebase_of_errorAt herror (5 * ci) s.draws
    have hkind : u.out.st = .invalidByte ∨ u.out.st = .invalidChunk := by
      rw [← hraised, raise_st, Error.status_rebase]
      exact decodeChunk_error_status hdec
    exact completes_of_eq (congrArg (completeBuffer s) hres)
      ⟨hraised, raise_sequencer_olenS _ _, hpos hkind, hbyte⟩
  · obtain ⟨l, hl⟩ := exists_decodeGroups_ok fun cj hcj => exists_decodeChunk_ok fun v => hall cj v hcj
    refine completes_of_eq (congrArg (completeBuffer s) ((decodeStrict_of_whole_groups hwhole).trans hl)) ?_
    refine ⟨rfl, decodeGroups_ok_length hl, rfl, fun ci u hci hu => ?_⟩
    have hpiece := decodeChunk_eq_memRead hl hci
    rw [Nat.zero_add] at hpiece
    exact Except.ok.inj (hpiece.symm.trans ((dec_shows hu).ok (hall ci u hci hu)))

/-- Settles O34: `VALS` raises the error of `DECS`, or none. -/
theorem valsAgreesWithDecs : Obligations.ValsAgreesWithDecs := by
  refine fun s => ⟨decode_packReq_sequencer (i := .vals) rfl, fun u hu => ?_⟩
  obtain ⟨l, hl, rfl⟩ | ⟨e, he, rfl⟩ := completeBuffer_next.mp hu
  · exact completes_of_eq (exec_vals_of_decodeStrict_ok hl) ⟨rfl, rfl, rfl⟩
  · exact completes_of_eq (exec_vals_of_decodeStrict_error he) ⟨rfl, rfl, raise_sequencer_olenS _ _⟩

/-- With status `OK` after `VALS`, `DECS` has a result (R106). -/
theorem exists_decodeStrict_ok_of_vals {s v : State} (h : exec .vals s = .next v) (hst : v.out.st = .ok) :
    ∃ l, decodeStrict s.inp.ibuf = .ok l := by
  cases hd : decodeStrict s.inp.ibuf with
  | ok l => exact ⟨l, rfl⟩
  | error e =>
    obtain rfl := complete_next.mp ((exec_vals_of_decodeStrict_error hd).symm.trans h)
    exact absurd ((raise_st _ _ _).symm.trans hst) (errorStatus_ne_ok e)

/-- Within its precondition `DECUS` ends as `DECS` does (R107). -/
theorem exec_decus_of_decodeStrict_ok {s : State} {l : List Byte} (h : decodeStrict s.inp.ibuf = .ok l) :
    exec .decus s = completeBuffer s (.ok l) := by
  have hvals : validateStrict s.inp.ibuf = .ok () := by
    rw [validateStrict_eq_map_decodeStrict, h, Except.map]
  have hgroups := h
  rw [decodeStrict_of_whole_groups (length_mod_of_decodeStrict_ok h)] at hgroups
  rw [exec, execDecus_eq_completeBuffer hvals, ENC_W, decodeGroupsTrusted_of_decodeGroups_ok hgroups]

/-- Settles O35: `DECUS` delivers whatever the buffer, and what `DECS` delivers where `VALS` passes it. -/
theorem decusDecodesValidatedBuffers : Obligations.DecusDecodesValidatedBuffers := by
  refine fun s => ⟨decode_packReq_sequencer (i := .decus) rfl, completes_of_eq (i := .decus) rfl rfl,
    fun v u hv hst hu => ?_⟩
  obtain ⟨l, hl⟩ := exists_decodeStrict_ok_of_vals hv hst
  have hdecs : exec .decs s = completeBuffer s (.ok l) := congrArg (completeBuffer s) hl
  obtain rfl := complete_next.mp (hdecs.symm.trans hu)
  exact completes_of_eq (exec_decus_of_decodeStrict_ok hl) ⟨rfl, decodeStrict_ok_length hl, rfl, rfl⟩

end Sys2Proof.Machine
end

section
/-! PROOF of `DecpDecodesBodyThenTail` and `DecpAmbiguityGuard`: the text that `DECP` reads is the groups before the
last and the last, which `decodePadded_of_sentinel` joins. -/

namespace Sys2Proof.Machine

/-- Where the groups before a tail group decode, an error of `TDEC` is the one that `DECP` reports, its position counted
from the start of the text (R98, R102). -/
theorem decp_completes_of_tail_error {s v : State} {l : List Byte} (hn : 5 ≤ s.inp.ibuf.length)
    (hwhole : s.inp.ibuf.length % 5 = 0) (hyes : s.inp.ibuf[s.inp.ibuf.length - 5]? = some SENTINEL)
    (hbody : decodeStrict (s.inp.ibuf.take (s.inp.ibuf.length - 5)) = .ok l)
    (hv : exec (.tdec (groupAt s.inp.ibuf (s.inp.ibuf.length - 5))) s = .next v) (hvst : v.out.st ≠ .ok) :
    Completes .decp s fun o => o.st = v.out.st ∧ o.olenS = 0 ∧
      (v.out.st = .invalidByte →
        o.eposAbs = s.inp.ibuf.length - 5 + v.out.epos.toNat ∧ o.ebyte = v.out.ebyte) := by
  obtain ⟨e, htail, herror⟩ := (tdec_shows hv).error hvst
  have hres := decodePadded_of_sentinel hn hwhole hyes
  rw [hbody, htail] at hres
  obtain ⟨hraised, hat, hbyte⟩ := raise_rebase_of_errorAt herror (s.inp.ibuf.length - 5) s.draws
  exact completes_of_eq (congrArg (completeBuffer s) hres)
    ⟨hraised, raise_sequencer_olenS _ _, fun hst => ⟨hat (.inl hst), hbyte hst⟩⟩

/-- Settles O32: the empty text, the length test, the strict text, and the outcomes of body and tail group. -/
theorem decpDecodesBodyThenTail : Obligations.DecpDecodesBodyThenTail := by
  refine fun s => ⟨decode_packReq_sequencer (i := .decp) rfl, fun hnil => ?_, completes_of_cut_group (by decide),
    fun hne hwhole => ?_⟩
  · have hres : decodePadded s.inp.ibuf = .ok [] := by
      rw [hnil]
      rfl
    exact completes_of_eq (congrArg (completeBuffer s) hres) ⟨rfl, rfl, rfl⟩
  have hpos := List.length_pos_of_ne_nil hne
  have hn : 5 ≤ s.inp.ibuf.length := by omega
  refine ⟨fun hno u hu => decp_reads_as_decs (decodePadded_of_no_sentinel hn hno) hu, fun hyes u v hu hv => ?_⟩
  have hres := decodePadded_of_sentinel hn hwhole hyes
  have hbody : u.out.st = .ok → decodeStrict (s.inp.ibuf.take (s.inp.ibuf.length - 5)) = .ok u.out.obuf :=
    decs_decodeStrict hu
  refine ⟨fun hust => ?_, fun hust hvst => ?_, fun hust hvst => ?_, fun hust hvst => ?_⟩
  · obtain ⟨e, herror, -⟩ := completeBuffer_error hu hust
    refine decp_reads_as_decs (hres.trans ?_) hu
    rw [onBuffer_ibuf] at herror ⊢
    rw [herror, Except.bind]
  · exact (decp_completes_of_tail_error hn hwhole hyes (hbody hust) hv (by simp [hvst])).imp
      fun o ⟨hst, holen, _⟩ => ⟨hst.trans hvst, holen⟩
  · exact (decp_completes_of_tail_error hn hwhole hyes (hbody hust) hv (by simp [hvst])).imp
      fun o ⟨hst, holen, hbyte⟩ => ⟨hst.trans hvst, holen, hbyte hvst⟩
  · have htail := decodeTail_ok_of_st_ok hv hvst
    have hdiff : v.out.diff.toNat = sentinelCount (groupAt s.inp.ibuf (s.inp.ibuf.length - 5)) :=
      Option.some.inj (exec_diff hv)
    have hlen : u.out.obuf.length = 4 * ((s.inp.ibuf.length - 5) / 5) := by
      rw [decodeStrict_ok_length (hbody hust), List.length_take_of_le (Nat.sub_le _ _)]
    rw [hbody hust, htail] at hres
    refine completes_of_eq (congrArg (completeBuffer s) hres) ⟨rfl, rfl, ?_⟩
    rw [deliverBuffer_olenS, List.length_append, hlen, decodeTail_ok_length htail, hdiff]
    omega

/-- Settles O33: an `InvalidChunk` comes from the groups before the tail group, and a group of valid bytes among them
that starts with the sentinel is one. -/
theorem decpAmbiguityGuard : Obligations.DecpAmbiguityGuard := by
  refine ⟨fun s t hne hwhole hyes hexec hst => ?_, fun s ci d0 d1 d2 d3 d4 hwhole hci hbefore hdigits hyes => ?_⟩
  · have hpos := List.length_pos_of_ne_nil hne
    have htail := (isTail_groupAt (by omega)).mpr hyes
    obtain ⟨e, he, hout⟩ := completeBuffer_error hexec (by simp [hst])
    rw [hout, raise_st] at hst
    obtain ⟨p, rfl⟩ := exists_eq_invalidChunk hst
    rw [hout, raise_sequencer_eposAbs_chunk]
    obtain ⟨e, hd, hp⟩ | ⟨body, -, ⟨e, hdt, hp⟩ | ⟨tail, -, hp⟩⟩ := decodePadded_tail_cases (by omega) hwhole htail
    · obtain rfl : e = .invalidChunk p := Except.error.inj (hp.symm.trans he)
      have hp := within_invalidChunk.mp (decodeGroups_error_within hd)
      rw [ENC_W] at hp
      omega
    · have hrebased : e.rebase (s.inp.ibuf.length - 5) = .invalidChunk p := Except.error.inj (hp.symm.trans he)
      cases e with
      | invalidChunk q => exact absurd hdt (decodeTail_ne_invalidChunk _ q)
      | invalidLength | invalidByte | invalidTail => cases hrebased
    · cases hp.symm.trans he
  · have hfirst : (groupAt s.inp.ibuf (5 * ci)).b0 = SENTINEL :=
      of_decide_eq_true ((isTail_groupAt (by omega)).mpr hyes)
    have hres := decodePadded_of_first_error hwhole hci (fun cj hcj => exists_decodeChunk_ok fun v => hbefore cj v hcj)
      (decodeChunk_of_sentinel hdigits hfirst)
    exact completes_of_eq (congrArg (completeBuffer s) hres) ⟨rfl, rfl, rfl⟩

end Sys2Proof.Machine
end

section
/-! PROOF of `ResultLengths`, `VariantsMeetOnlyWithoutTail` and `TruncatedTexts`: the results of whole texts, at the
ports. -/

namespace Sys2Proof.Machine

/-- Settles O41: the length of the bytes that each operation has delivered. -/
theorem resultLengths : Obligations.ResultLengths := by
  refine fun s t => ⟨fun hexec hst => ?_, fun hexec => ?_, fun hexec hst => ?_, fun hexec hst u hu => ?_⟩
  · have hmod : s.inp.ibuf.length % 4 = 0 := by
      by_contra hcut
      cases (encodeStrict_of_cut_chunk hcut).symm.trans (completeBuffer_ok hexec hst)
    rw [completeBuffer_ok_olenS hexec hst, encs_obuf hmod hexec, encodeChunks_length, Nat.mul_comm]
  · obtain rfl := complete_next.mp hexec
    exact encodePadded_length s.inp.ibuf
  · rw [completeBuffer_ok_olenS hexec hst, decodeStrict_ok_length (decs_decodeStrict hexec hst), Nat.mul_comm]
  · have hdiff : u.out.diff.toNat = sentinelCount (groupAt s.inp.ibuf (s.inp.ibuf.length - 5)) :=
      Option.some.inj (exec_diff hu)
    rw [completeBuffer_ok_olenS hexec hst, decodePadded_ok_length (completeBuffer_ok hexec hst), hdiff]

/-- Five alphabet bytes spell digits. -/
theorem exists_hasDigits_of_inAlphabet {g : Byte5} (h : InAlphabet (bytes5 g)) :
    ∃ d0 d1 d2 d3 d4, HasDigits g d0 d1 d2 d3 d4 := by
  have hdigit : ∀ b ∈ bytes5 g, ∃ d, inv b = some d := by
    intro b hb
    obtain ⟨d, hd, rfl⟩ := h b hb
    exact ⟨d, inv_alpha hd⟩
  simp only [bytes5, List.forall_mem_cons] at hdigit
  obtain ⟨⟨d0, h0⟩, ⟨d1, h1⟩, ⟨d2, h2⟩, ⟨d3, h3⟩, ⟨d4, h4⟩, -⟩ := hdigit
  exact ⟨d0, d1, d2, d3, d4, h0, h1, h2, h3, h4⟩

/-- The strict decoder takes a tail group for a group that is too large (R104 (c)). -/
theorem decodeChunk_encodeTail {l : List Byte} (h : IsTail l) :
    decodeChunk (encodeTail l) = .error (.invalidChunk 0) := by
  obtain ⟨d0, d1, d2, d3, d4, hdigits⟩ := exists_hasDigits_of_inAlphabet (inAlphabet_encodeTail l)
  exact decodeChunk_of_sentinel hdigits (of_decide_eq_true (isTail_encodeTail h))

/-- `DECS` decodes the whole chunks and stops at the tail group (R104 (c)). -/
theorem decodeStrict_encodePadded {buf : List Byte} (h : buf.length % 4 ≠ 0) :
    decodeStrict (encodePadded buf) = .error (.invalidChunk (5 * (buf.length / 4))) := by
  obtain ⟨front, tail, rfl, hmod, hdiv, htail⟩ := exists_chunks_append_tail h
  have hlen := encodeChunks_length front (front.length / 4) 0
  rw [encodePadded_append_tail hmod htail, decodeStrict_append (by omega) (by rw [bytes5_length]),
    decodeStrict_encodeChunks hmod, decodeStrict_one_group, decodeChunk_encodeTail htail, hlen, hdiv]
  rfl

/-- Settles O42: `decodePadded_encodeChunks` and `decodeStrict_encodePadded`, at the ports. -/
theorem variantsMeetOnlyWithoutTail : Obligations.VariantsMeetOnlyWithoutTail := by
  refine fun b s t => ⟨fun hwhole hexec => ?_, fun hcut hexec => ?_⟩
  · have htext : t.out.obuf = encodeChunks b (b.length / 4) 0 := encs_obuf hwhole hexec
    rw [htext]
    exact completes_of_eq (congrArg (completeBuffer _) (decodePadded_encodeChunks hwhole)) ⟨rfl, rfl⟩
  · obtain rfl := complete_next.mp hexec
    exact completes_of_eq (congrArg (completeBuffer _) (decodeStrict_encodePadded hcut)) ⟨rfl, rfl, rfl⟩

/-- Settles O45: the length test of the three decoders, and `decodeStrict_take`, at the ports. -/
theorem truncatedTexts : Obligations.TruncatedTexts := by
  refine ⟨fun b n s hn hcut i hi => ?_, fun b m s t hexec hst => ?_⟩
  · refine (completes_of_cut_group hi ?_).imp fun o ⟨hst, helen, holen⟩ => ⟨hst, helen.trans ?_, holen⟩
    · rwa [onBuffer_ibuf, List.length_take_of_le hn]
    · exact List.length_take_of_le hn
  · have htake := decodeStrict_take (decs_decodeStrict hexec hst) m
    rw [onBuffer_ibuf] at htake
    exact completes_of_eq (congrArg (completeBuffer _) htake) ⟨rfl, rfl⟩

end Sys2Proof.Machine
end

section
/-! SUPPORT. How an operation ends, said once for all thirteen (`exec_ends`), and what its error says of the bytes that
it was found in (R111 to R114), from one group up to a whole text. -/

namespace Sys2Proof.Machine

/-! ### How an operation ends -/

/-- The ports `o` end an operation with the result `res`: `OK`, with no more bytes than `DOUT` holds where it is driven,
or the error of `res` as it is raised, `DIFF` apart, which `TDEC` drives besides (R92, R118). -/
def Ends (format : Format) (res : Except Error (List Byte)) (n : Nat) (o : Outputs) : Prop :=
  (o.st = .ok ∧ (format = .chunk → o.olen.toNat ≤ 5)) ∨
  (∃ e d, res = .error e ∧ o = { raise format e n with diff := d })

theorem completeChunk_ends {s t : State} {res : Except Error (List Byte)} (hres : FitsChunkPorts res)
    (h : completeChunk s res = .next t) : Ends .chunk res s.draws t.out := by
  obtain ⟨l, rfl, rfl⟩ | ⟨e, rfl, rfl⟩ := completeChunk_next.mp h
  · have hlen : l.length ≤ 5 := hres
    refine .inl ⟨rfl, fun _ => ?_⟩
    rw [deliverBytes_olen, BitVec.toNat_ofNat]
    exact (Nat.mod_le _ _).trans hlen
  · exact .inr ⟨e, _, rfl, rfl⟩

theorem completeBuffer_ends {s t : State} {res : Except Error (List Byte)} (h : completeBuffer s res = .next t) :
    Ends .sequencer res s.draws t.out := by
  obtain ⟨l, rfl, rfl⟩ | ⟨e, rfl, rfl⟩ := completeBuffer_next.mp h
  · exact .inl ⟨rfl, nofun⟩
  · exact .inr ⟨e, _, rfl, rfl⟩

theorem tdec_ends {g : Byte5} {s t : State} (h : exec (.tdec g) s = .next t) :
    Ends .chunk (decodeTail g) s.draws t.out := by
  obtain ⟨t', ht', hout⟩ := execTdec_next h
  rw [hout]
  obtain hok | ⟨e, d, he, ho⟩ := completeChunk_ends (decodeTail_fitsChunkPorts g) ht'
  · exact .inl hok
  · exact .inr ⟨e, _, he, by rw [ho]⟩

theorem vals_ends {s t : State} (h : exec .vals s = .next t) :
    Ends .sequencer ((validateStrict s.inp.ibuf).map fun _ => []) s.draws t.out := by
  cases hd : decodeStrict s.inp.ibuf with
  | ok l =>
    obtain rfl := complete_next.mp ((exec_vals_of_decodeStrict_ok hd).symm.trans h)
    exact .inl ⟨rfl, nofun⟩
  | error e =>
    obtain rfl := complete_next.mp ((exec_vals_of_decodeStrict_error hd).symm.trans h)
    refine .inr ⟨e, _, ?_, rfl⟩
    rw [validateStrict_eq_map_decodeStrict, hd]
    rfl

/-- Every operation ends with its result, the unchecked decodes outside their precondition too: they never report an
error (R82, R107). -/
theorem exec_ends {i : Instr} {s t : State} (h : exec i s = .next t) :
    Ends (formatOf i) (resultOf i s.inp.ibuf) s.draws t.out := by
  cases i with
  | enc c => exact completeChunk_ends (res := .ok _) (bytes5_length _).le h
  | dec g => exact completeChunk_ends (decodeChunk_fitsChunkPorts g) h
  | val g =>
    exact completeChunk_ends (decodeChunk_fitsChunkPorts g).dropBytes ((execVal_eq_completeChunk g s).symm.trans h)
  | decu g =>
    obtain rfl := complete_next.mp h
    exact .inl ⟨rfl, fun _ => Nat.le_succ 4⟩
  | tdet g =>
    obtain rfl := complete_next.mp h
    exact .inl ⟨rfl, fun _ => Nat.zero_le 5⟩
  | tenc l => exact completeChunk_ends (res := .ok _) (bytes5_length _).le (execTenc_next.mp h).2
  | tdec g => exact tdec_ends h
  | encs => exact completeBuffer_ends h
  | decs => exact completeBuffer_ends h
  | encp => exact completeBuffer_ends (res := .ok _) h
  | decp => exact completeBuffer_ends h
  | vals => exact vals_ends h
  | decus =>
    obtain rfl := complete_next.mp h
    exact .inl ⟨rfl, nofun⟩

/-! ### What an error says of the bytes it was found in -/

/-- The error speaks of the bytes `buf`: it reports their number (R111), one of them that is invalid, at its position
(R112), or the start of a group of them (R113). -/
def Error.FoundIn (buf : List Byte) : Error → Prop
  | .invalidLength n => n = buf.length
  | .invalidByte i c => buf[i]? = some c ∧ inv c = none
  | .invalidChunk p => p % 5 = 0 ∧ p + 5 ≤ buf.length
  | .invalidTail => True

/-- Rebasing (R98) moves an error found in a group to the place of the group in the buffer. -/
theorem Error.FoundIn.rebase {buf : List Byte} {off : Nat} {e : Error} (h : e.FoundIn (bytes5 (groupAt buf off)))
    (hlocal : e.IsLocal) (hstart : off % 5 = 0) (hin : off + 5 ≤ buf.length) : (e.rebase off).FoundIn buf := by
  cases e with
  | invalidLength n => exact hlocal.elim
  | invalidByte i c =>
    obtain ⟨hc, hbad⟩ := h
    have hi : i < 5 := Nat.lt_succ_of_le hlocal
    rw [bytes5_groupAt hin, getElem?_memRead buf off hi] at hc
    exact ⟨hc, hbad⟩
  | invalidChunk p =>
    obtain rfl : p = 0 := hlocal
    exact ⟨hstart, hin⟩
  | invalidTail => trivial

theorem chunkValue_error_foundIn {g : Byte5} {e : Error} (h : chunkValue g = .error e) : e.FoundIn (bytes5 g) := by
  obtain ⟨i, c, ⟨hc, hbad, -⟩, -, hv⟩ | ⟨_, _, _, _, _, -, ⟨-, hv⟩ | ⟨-, hv⟩⟩ := chunkValue_cases g
  · obtain rfl : Error.invalidByte i c = e := Except.error.inj (hv.symm.trans h)
    exact ⟨hc, hbad⟩
  · obtain rfl : Error.invalidChunk 0 = e := Except.error.inj (hv.symm.trans h)
    exact ⟨rfl, le_rfl⟩
  · cases hv.symm.trans h

/-- The characters that the rewriting puts in are valid, so an invalid byte of the copy is one of the group (R92). -/
theorem Error.FoundIn.of_rewriteTail {g : Byte5} {k : Nat} {e : Error} (hk : k ≤ 5)
    (h : e.FoundIn (bytes5 (rewriteTail k g))) : e.FoundIn (bytes5 g) := by
  cases e with
  | invalidByte i c =>
    obtain ⟨hc, hbad⟩ := h
    rw [getElem?_rewriteTail hk] at hc
    split at hc
    · obtain rfl := Option.some.inj hc
      have hzero : inv zeroCh = some 0 := inv_alpha (by decide)
      cases hzero.symm.trans hbad
    · exact ⟨hc, hbad⟩
  | invalidLength n => exact h
  | invalidChunk p => exact h
  | invalidTail => trivial

theorem decodeTail_error_foundIn {g : Byte5} {e : Error} (h : decodeTail g = .error e) : e.FoundIn (bytes5 g) := by
  by_cases hk : sentinelCount g < 1 ∨ 3 < sentinelCount g
  · obtain rfl : Error.invalidTail = e := Except.error.inj ((decodeTail_of_count hk).symm.trans h)
    trivial
  obtain ⟨hlo, hhi⟩ : 1 ≤ sentinelCount g ∧ sentinelCount g ≤ 3 := by omega
  cases hv : chunkValue (rewriteTail (sentinelCount g) g) with
  | error e' =>
    obtain rfl : e' = e := Except.error.inj ((decodeTail_of_chunkValue_error hlo hhi hv).symm.trans h)
    exact (chunkValue_error_foundIn hv).of_rewriteTail (sentinelCount_le g)
  | ok n =>
    rw [decodeTail_of_chunkValue_ok hlo hhi hv] at h
    split at h
    · obtain rfl := Except.error.inj h
      trivial
    · cases h

/-- `TDEC` reports a byte or the tail (R93). -/
theorem decodeTail_error_status {g : Byte5} {e : Error} (h : decodeTail g = .error e) :
    e.status = .invalidByte ∨ e.status = .invalidTail := by
  have hlocal := decodeTail_error_isLocal h
  cases e with
  | invalidLength n => exact hlocal.elim
  | invalidByte i c => exact .inl rfl
  | invalidChunk p => exact absurd h (decodeTail_ne_invalidChunk g p)
  | invalidTail => exact .inr rfl

/-! ### The error of a text -/

/-- The error `e` is that of the group decoder `f` on a whole group of the buffer, rebased (R98). -/
def IsErrorOfGroup (f : Byte5 → Except Error (List Byte)) (buf : List Byte) (e : Error) : Prop :=
  ∃ off e', off % 5 = 0 ∧ off + 5 ≤ buf.length ∧ f (groupAt buf off) = .error e' ∧ e = e'.rebase off

theorem decodeGroups_error {buf : List Byte} {k ci : Nat} {e : Error} (hk : 5 * (ci + k) ≤ buf.length)
    (h : decodeGroups buf k ci = .error e) : IsErrorOfGroup decodeChunk buf e := by
  obtain ⟨j, e', hj, he', -, hd⟩ | ⟨_, -, -, hd⟩ := decodeGroups_cases buf k ci
  · exact ⟨5 * (ci + j), e', by omega, by omega, he', Except.error.inj (h.symm.trans hd)⟩
  · cases hd.symm.trans h

theorem decodeStrict_error {buf : List Byte} {e : Error} (h : decodeStrict buf = .error e) :
    e = .invalidLength buf.length ∨ IsErrorOfGroup decodeChunk buf e := by
  by_cases hwhole : buf.length % 5 = 0
  · rw [decodeStrict_of_whole_groups hwhole] at h
    exact .inr (decodeGroups_error (by omega) h)
  · exact .inl (Except.error.inj (h.symm.trans (decodeStrict_of_cut_group hwhole)))

theorem decodePadded_error {buf : List Byte} {e : Error} (h : decodePadded buf = .error e) :
    e = .invalidLength buf.length ∨ IsErrorOfGroup decodeChunk buf e ∨ IsErrorOfGroup decodeTail buf e := by
  by_cases hstrict : buf.length = 0 ∨ buf.length % ENC_W ≠ 0 ∨ isTail (groupAt buf (buf.length - 5)) = false
  · rw [decodePadded_eq_decodeStrict hstrict] at h
    exact (decodeStrict_error h).imp_right .inl
  obtain ⟨hn, hm, ht⟩ :
      buf.length ≠ 0 ∧ buf.length % ENC_W = 0 ∧ isTail (groupAt buf (buf.length - 5)) = true := by
    simpa using hstrict
  have hcases := decodePadded_tail_cases hn hm ht
  simp only [ENC_W] at hm hcases
  obtain ⟨e', hd, hp⟩ | ⟨l, -, ⟨e', hdt, hp⟩ | ⟨tail, -, hp⟩⟩ := hcases
  · obtain rfl : e' = e := Except.error.inj (hp.symm.trans h)
    exact .inr (.inl (decodeGroups_error (by omega) hd))
  · exact .inr (.inr ⟨buf.length - 5, e', by omega, by omega, hdt, Except.error.inj (h.symm.trans hp)⟩)
  · cases hp.symm.trans h

theorem encodeStrict_error {buf : List Byte} {e : Error} (h : encodeStrict buf = .error e) :
    e = .invalidLength buf.length := by
  by_cases hwhole : buf.length % 4 = 0
  · cases (encodeStrict_of_whole_chunks hwhole).symm.trans h
  · exact Except.error.inj (h.symm.trans (encodeStrict_of_cut_chunk hwhole))

theorem error_of_map_error {α β : Type} {res : Except Error α} {f : α → β} {e : Error}
    (h : res.map f = .error e) : res = .error e := by
  cases res with
  | ok a => cases h
  | error e' => exact congrArg _ (Except.error.inj h)

theorem decodeStrict_of_vals_error {buf : List Byte} {e : Error}
    (h : ((validateStrict buf).map fun _ => ([] : List Byte)) = .error e) : decodeStrict buf = .error e := by
  have hv := error_of_map_error h
  rw [validateStrict_eq_map_decodeStrict] at hv
  exact error_of_map_error hv

end Sys2Proof.Machine
end

section
/-! PROOF of `EveryOperationCompletes`, and of `OperationsReportOnlyTheirErrors` by `exec_ends` and the statuses of each
result's errors, row by row of R115. -/

namespace Sys2Proof.Machine

/-- Settles O11: every well-formed operation ends in `complete`, which keeps the input ports and the schedule. -/
theorem everyOperationCompletes : Obligations.EveryOperationCompletes := by
  intro i s hwf
  obtain ⟨o, ho⟩ := exec_eq_complete hwf s
  exact completes_of_eq ho trivial

theorem IsErrorOfGroup.exists_status {f : Byte5 → Except Error (List Byte)} {buf : List Byte} {e : Error}
    (h : IsErrorOfGroup f buf e) : ∃ g e', f g = .error e' ∧ e.status = e'.status := by
  obtain ⟨off, e', -, -, he', rfl⟩ := h
  exact ⟨_, e', he', e'.status_rebase off⟩

/-- The strict decoders report what `DEC` does, or the length (R100, R106). -/
theorem decodeStrict_error_status {buf : List Byte} {e : Error} (h : decodeStrict buf = .error e) :
    e.status ∈ [.invalidLength, .invalidByte, .invalidChunk] := by
  obtain rfl | hgroup := decodeStrict_error h
  · exact List.mem_cons_self
  · obtain ⟨g, e', he', hst⟩ := hgroup.exists_status
    exact List.mem_cons_of_mem _ (by simpa [hst] using decodeChunk_error_status he')

/-- `DECP` reports what `DEC` and `TDEC` do, or the length (R102). -/
theorem decodePadded_error_status {buf : List Byte} {e : Error} (h : decodePadded buf = .error e) :
    e.status ∈ [.invalidLength, .invalidByte, .invalidChunk, .invalidTail] := by
  obtain rfl | hgroup | hgroup := decodePadded_error h
  · exact List.mem_cons_self
  · obtain ⟨g, e', he', hst⟩ := hgroup.exists_status
    obtain hbyte | hchunk := decodeChunk_error_status he'
    · simp [hst, hbyte]
    · simp [hst, hchunk]
  · obtain ⟨g, e', he', hst⟩ := hgroup.exists_status
    obtain hbyte | htail := decodeTail_error_status he'
    · simp [hst, hbyte]
    · simp [hst, htail]

theorem resultOf_error_status {i : Instr} {buf : List Byte} {e : Error} (h : resultOf i buf = .error e) :
    e.status ∈ errorStatuses i := by
  cases i with
  | enc | decu | tdet | tenc | encp | decus => cases h
  | dec g => simpa [errorStatuses] using decodeChunk_error_status h
  | val g => simpa [errorStatuses] using decodeChunk_error_status (error_of_map_error h)
  | tdec g => simpa [errorStatuses] using decodeTail_error_status h
  | encs =>
    obtain rfl := encodeStrict_error h
    exact List.mem_cons_self
  | decs => exact decodeStrict_error_status h
  | decp => exact decodePadded_error_status h
  | vals => exact decodeStrict_error_status (decodeStrict_of_vals_error h)

/-- Settles O47: a status other than `OK` is that of an error of the operation's result. -/
theorem operationsReportOnlyTheirErrors : Obligations.OperationsReportOnlyTheirErrors := by
  intro i s t hexec
  obtain ⟨hok, -⟩ | ⟨e, d, he, ho⟩ := exec_ends hexec
  · exact .inl hok
  · exact .inr (by simpa [ho] using resultOf_error_status he)

end Sys2Proof.Machine
end

section
/-! PROOF of `StepKeepsPortsLegal`. The ports that an operation leaves are legal for it whatever they were before
(`exec_portsLegal`): its error was found in its group or in the buffer, and is raised as it was found. -/

namespace Sys2Proof.Machine

/-! ### Where the error of a result was found -/

theorem IsErrorOfGroup.foundIn {f : Byte5 → Except Error (List Byte)} {buf : List Byte} {e : Error}
    (h : IsErrorOfGroup f buf e) (hf : ∀ g e', f g = .error e' → e'.FoundIn (bytes5 g) ∧ e'.IsLocal) :
    e.FoundIn buf := by
  obtain ⟨off, e', hstart, hin, he', rfl⟩ := h
  obtain ⟨hfound, hlocal⟩ := hf _ _ he'
  exact hfound.rebase hlocal hstart hin

theorem decodeChunk_error_foundIn {g : Byte5} {e : Error} (h : decodeChunk g = .error e) :
    e.FoundIn (bytes5 g) ∧ e.IsLocal :=
  have hv := decodeChunk_error_iff.mp h
  ⟨chunkValue_error_foundIn hv, chunkValue_error_isLocal hv⟩

theorem decodeStrict_error_foundIn {buf : List Byte} {e : Error} (h : decodeStrict buf = .error e) :
    e.FoundIn buf := by
  obtain rfl | hgroup := decodeStrict_error h
  · rfl
  · exact hgroup.foundIn fun _ _ => decodeChunk_error_foundIn

theorem decodePadded_error_foundIn {buf : List Byte} {e : Error} (h : decodePadded buf = .error e) :
    e.FoundIn buf := by
  obtain rfl | hgroup | hgroup := decodePadded_error h
  · rfl
  · exact hgroup.foundIn fun _ _ => decodeChunk_error_foundIn
  · exact hgroup.foundIn fun _ _ hd => ⟨decodeTail_error_foundIn hd, decodeTail_error_isLocal hd⟩

/-- The error of a chunk operation was found in a group. -/
theorem resultOf_chunk_error {i : Instr} {buf : List Byte} {e : Error} (hformat : formatOf i = .chunk)
    (h : resultOf i buf = .error e) : ∃ g, e.FoundIn (bytes5 g) := by
  cases i with
  | encs | decs | encp | decp | vals | decus => cases hformat
  | enc | decu | tdet | tenc => cases h
  | dec g => exact ⟨g, (decodeChunk_error_foundIn h).1⟩
  | val g => exact ⟨g, (decodeChunk_error_foundIn (error_of_map_error h)).1⟩
  | tdec g => exact ⟨g, decodeTail_error_foundIn h⟩

/-- The error of a sequencer operation was found in the buffer. -/
theorem resultOf_sequencer_error {i : Instr} {buf : List Byte} {e : Error} (hformat : formatOf i = .sequencer)
    (h : resultOf i buf = .error e) : e.FoundIn buf := by
  cases i with
  | enc | dec | val | decu | tdet | tenc | tdec => cases hformat
  | encp | decus => cases h
  | encs =>
    obtain rfl := encodeStrict_error h
    exact rfl
  | decs => exact decodeStrict_error_foundIn h
  | decp => exact decodePadded_error_foundIn h
  | vals => exact decodeStrict_error_foundIn (decodeStrict_of_vals_error h)

/-! ### Legal ports -/

theorem chunkPortsLegal_of_ok {o : Outputs} (hst : o.st = .ok) (holen : o.olen.toNat ≤ 5) : chunkPortsLegal o := by
  simp [chunkPortsLegal, hst, holen]

theorem sequencerPortsLegal_of_ok {o : Outputs} (hst : o.st = .ok) (buf : List Byte) :
    sequencerPortsLegal buf o := by
  simp [sequencerPortsLegal, hst]

theorem chunkPortsLegal_raise {g : Byte5} {e : Error} (h : e.FoundIn (bytes5 g)) (n : Nat) (d : BitVec 3) :
    chunkPortsLegal { raise .chunk e n with diff := d } := by
  refine ⟨by simp, fun _ => raise_chunk_olen e n, ?_⟩
  simp only [raise_st]
  cases e with
  | invalidByte i c =>
    obtain ⟨hc, hbad⟩ := h
    have hi : i < 5 := (List.getElem?_eq_some_iff.mp hc).1
    refine ⟨fun _ => ⟨?_, hbad⟩, nofun⟩
    rw [raise_chunk_epos_byte, BitVec.toNat_ofNat]
    omega
  | invalidChunk p =>
    obtain ⟨-, hp⟩ := h
    rw [bytes5_length] at hp
    obtain rfl : p = 0 := by omega
    exact ⟨nofun, fun _ => rfl⟩
  | invalidLength m => exact ⟨nofun, nofun⟩
  | invalidTail => exact ⟨nofun, nofun⟩

theorem sequencerPortsLegal_raise {buf : List Byte} {e : Error} (h : e.FoundIn buf) (n : Nat) (d : BitVec 3) :
    sequencerPortsLegal buf { raise .sequencer e n with diff := d } := by
  refine ⟨fun _ => raise_sequencer_olenS e n, ?_⟩
  simp only [raise_st]
  cases e with
  | invalidLength m => exact ⟨fun _ => h, nofun, nofun⟩
  | invalidByte i c => exact ⟨nofun, fun _ => h, nofun⟩
  | invalidChunk p => exact ⟨nofun, nofun, fun _ => h⟩
  | invalidTail => exact ⟨nofun, nofun, nofun⟩

/-! ### Every step -/

/-- The ports that an operation leaves are legal for it. -/
theorem exec_portsLegal {i : Instr} {s t : State} (h : exec i s = .next t) :
    mayReport i t.out.st ∧
    (formatOf i = .chunk → chunkPortsLegal t.out) ∧
    (formatOf i = .sequencer → sequencerPortsLegal s.inp.ibuf t.out) := by
  refine ⟨operationsReportOnlyTheirErrors i s t h, ?_⟩
  obtain ⟨hok, holen⟩ | ⟨e, d, he, ho⟩ := exec_ends h
  · exact ⟨fun hformat => chunkPortsLegal_of_ok hok (holen hformat), fun _ => sequencerPortsLegal_of_ok hok _⟩
  · rw [ho]
    refine ⟨fun hformat => ?_, fun hformat => ?_⟩
    · obtain ⟨g, hg⟩ := resultOf_chunk_error hformat he
      exact hformat ▸ chunkPortsLegal_raise hg s.draws d
    · exact hformat ▸ sequencerPortsLegal_raise (resultOf_sequencer_error hformat he) s.draws d

/-- What a step can do: nothing, with nothing to issue, or the operation of the next word, which then stands at the inputs
and still stands there after it (R13, R38). -/
theorem step_next_cases {s t : State} (h : step s = .next t) :
    (s.pending = [] ∧ t = s) ∨
    (∃ u rest i, s.pending = u :: rest ∧ decode u.req = .ok i ∧ exec i (s.present u rest) = .next t ∧
      t.inp = u ∧ t.pending = rest) := by
  cases hp : s.pending with
  | nil =>
    rw [step, hp] at h
    exact .inl ⟨rfl, (Host.Outcome.next.inj h).symm⟩
  | cons u rest =>
    cases hdec : decode u.req with
    | error e => cases (step_of_decode_error hp hdec).symm.trans h
    | ok i =>
      have hexec : exec i (s.present u rest) = .next t := (step_of_decode_ok hp hdec).symm.trans h
      obtain ⟨hwf, -⟩ := decodedRequestMatchesItsRow u.req i hdec
      obtain ⟨v, hv, -, hframe⟩ := everyOperationCompletes i (s.present u rest) hwf
      obtain rfl : v = t := Host.Outcome.next.inj (hv.symm.trans hexec)
      exact .inr ⟨u, rest, i, rfl, hdec, hexec, hframe⟩

/-- Settles O49: an idle step changes nothing, and an operation leaves legal ports for the request at the inputs, whose
operation it is. -/
theorem stepKeepsPortsLegal : Obligations.StepKeepsPortsLegal := by
  intro s t hlegal hstep
  obtain ⟨-, rfl⟩ | ⟨u, rest, i, -, hdec, hexec, hinp, -⟩ := step_next_cases hstep
  · exact hlegal
  · intro j hj
    rw [hinp] at hj ⊢
    obtain rfl : i = j := Except.ok.inj (hdec.symm.trans hj)
    exact exec_portsLegal hexec

end Sys2Proof.Machine
end

section
/-! PROOF of `TailGroupIsLegalOnlyAtTheEnd`: behind the last group of a text, that group is an ordinary one, so `DECP`
reports the error that `DECS` has on the text (R103, R131). -/

namespace Sys2Proof.Machine

/-- An error of `DECS` on whole groups stays that of `DECP` whatever whole groups stand behind them: the group that
`DECP` may take for a tail group is one of those behind (R102, R103). -/
theorem decodePadded_append_of_decodeStrict_error {b b' : List Byte} {e : Error} (hb : b.length % 5 = 0)
    (hne : b' ≠ []) (hb' : b'.length % 5 = 0) (h : decodeStrict b = .error e) :
    decodePadded (b ++ b') = .error e := by
  have hstrict : ∀ b'' : List Byte, b''.length % 5 = 0 → decodeStrict (b ++ b'') = .error e := by
    intro b'' hb''
    rw [decodeStrict_append hb hb'', h, Except.bind]
  have hpos := List.length_pos_of_ne_nil hne
  obtain ⟨front, g, rfl⟩ : ∃ front g, b' = front ++ bytes5 g := ⟨_, _, (take_append_last_group (by omega)).symm⟩
  rw [List.length_append, bytes5_length] at hb'
  have hfront : front.length % 5 = 0 := by omega
  rw [← List.append_assoc]
  cases hg : isTail g with
  | false =>
    rw [decodePadded_eq_decodeStrict (.inr (.inr (by rwa [groupAt_last]))), List.append_assoc]
    exact hstrict _ (by rwa [List.length_append, bytes5_length])
  | true =>
    rw [decodePadded_append_tail (by rw [List.length_append]; omega) hg, hstrict front hfront, Except.bind]

/-- Settles O46: the error of `decodeStrict_encodePadded`, kept by the groups behind the tail group. -/
theorem tailGroupIsLegalOnlyAtTheEnd : Obligations.TailGroupIsLegalOnlyAtTheEnd := by
  intro b text s t hcut hexec hne htext
  have hobuf : t.out.obuf = encodePadded b := by rw [complete_next.mp hexec, deliverBuffer_obuf, onBuffer_ibuf]
  have hgroups : (encodePadded b).length % 5 = 0 := by
    rw [encodePadded_length, encodedLength, Nat.mul_mod_left]
  have hres := decodePadded_append_of_decodeStrict_error hgroups hne htext (decodeStrict_encodePadded hcut)
  rw [hobuf]
  exact completes_of_eq (congrArg (completeBuffer _) hres) ⟨rfl, rfl, rfl⟩

end Sys2Proof.Machine
end

section
/-! PROOF of `ResetIssuesNothing`. -/

namespace Sys2Proof.Machine

/-- Settles O51: reset has an empty schedule, and the word of an operation is decoded to it (`decode_encode`). -/
theorem resetIssuesNothing : Obligations.ResetIssuesNothing :=
  ⟨rfl, rfl, fun _ _ hwf => step_of_decode_ok rfl (decode_encode hwf)⟩

end Sys2Proof.Machine
end

section
/-! PROOF of `RequestWordsDecode`, `StepRunsTheDecodedRequest` and `ResetPortsLegal`. -/

namespace Sys2Proof.Machine

/-- Settles O8: the fields of each word are read and its operation looked up, by evaluation of fifteen closed words. -/
theorem requestWordsDecode : Obligations.RequestWordsDecode := by
  unfold Obligations.RequestWordsDecode
  decide

/-- With nothing to issue a step leaves the state as it is (log 3). -/
theorem step_of_pending_nil {s : State} (hp : s.pending = []) : step s = .next s := by
  simp [step, hp]

/-- Settles O9: the two cases of the schedule; the state that `exec` starts from is `State.present`. -/
theorem stepRunsTheDecodedRequest : Obligations.StepRunsTheDecodedRequest :=
  ⟨fun _ _ _ _ hp hdec => step_of_decode_ok hp hdec, fun _ hp => step_of_pending_nil hp⟩

/-- Settles O50: reset shows the status `OK` and the length 0, and such ports are legal for every operation. -/
theorem resetPortsLegal : Obligations.ResetPortsLegal := by
  intro i _
  have hst : State.reset.out.st = .ok := rfl
  have holen : State.reset.out.olen.toNat ≤ 5 := Nat.zero_le 5
  exact ⟨.inl hst, fun _ => chunkPortsLegal_of_ok hst holen, fun _ => sequencerPortsLegal_of_ok hst _⟩

end Sys2Proof.Machine
end
